-- ==== Sys2Proof/Word.lean ====
section
/-! DEFINITION. The word types of the engine (00_scope.md R8): a register is 32 bits, an offset or length register
holds 16, BUF and every cryptographic operand is a string of bytes. -/

namespace Sys2Proof

/-- One byte; bit 7 is the most significant (R8). -/
abbrev Byte := BitVec 8

/-- The 16 stored bits of an offset or length register (10_state.md R34, R35). -/
abbrev Half := BitVec 16

/-- A 32-bit register or a host's bus word (R8). -/
abbrev Word := BitVec 32

/-- A byte string: the first byte is the one at the lowest BUF offset (R8). -/
abbrev Bytes := List Byte

end Sys2Proof
end

