-- ==== Sys2Proof/Syntax.lean ====
section
/-! DEFINITION. The commands of the engine, one constructor per row of spec/opcode_table.json (30_encoding.md R98),
with the command-word fields that row uses. -/

namespace Sys2Proof

/-- A command. MICSZ and SEGCNT are unsigned counts (R92, R94) and ASZMIC one flag (R93); every other operand is a
register (R101). -/
inductive Instr where
  /-- 0x01: one AES-128 block. -/
  | aesEcb
  /-- 0x02: AES-CMAC over `segcnt` segments. -/
  | cmac (segcnt : Nat)
  /-- 0x03: the salt function s1. -/
  | s1
  /-- 0x04: k1. -/
  | k1
  /-- 0x05: k2. -/
  | k2
  /-- 0x06: k3. -/
  | k3
  /-- 0x07: k4. -/
  | k4
  /-- 0x08: id128. -/
  | id128
  /-- 0x09: AES-CCM encryption with a MIC of `micsz` bytes. -/
  | ccmEnc (micsz : Nat)
  /-- 0x0A: AES-CCM decryption with a MIC of `micsz` bytes. -/
  | ccmDec (micsz : Nat)
  /-- 0x0B: the network nonce. -/
  | nonceNet
  /-- 0x0C: the proxy nonce. -/
  | nonceProxy
  /-- 0x0D: the application nonce for a non-device key. -/
  | nonceApp (aszmic : Bool)
  /-- 0x0E: the application nonce for a device key. -/
  | nonceDev (aszmic : Bool)
deriving DecidableEq, Repr

end Sys2Proof
end

