-- ==== Sys2Proof/WellFormed.lean ====
section
/-! DEFINITION. Which commands a command word can hold: each field fits its bits (30_encoding.md R90). A well-formed
command may still fail a check when it runs (R103): MICSZ = 6 or SEGCNT = 5 is well formed. -/

namespace Sys2Proof

/-- MICSZ is CMD[12:8], 0 to 31 (30_encoding.md R92). -/
abbrev micszFits (micsz : Nat) : Prop := micsz < 32

/-- SEGCNT is CMD[19:17], 0 to 7 (30_encoding.md R94). -/
abbrev segcntFits (segcnt : Nat) : Prop := segcnt < 8

/-- Every field of the command fits its bits of the command word. -/
def Instr.wf : Instr → Bool
  | .aesEcb => true
  | .cmac segcnt => decide (segcntFits segcnt)
  | .s1 => true
  | .k1 => true
  | .k2 => true
  | .k3 => true
  | .k4 => true
  | .id128 => true
  | .ccmEnc micsz => decide (micszFits micsz)
  | .ccmDec micsz => decide (micszFits micsz)
  | .nonceNet => true
  | .nonceProxy => true
  | .nonceApp _ => true
  | .nonceDev _ => true

end Sys2Proof
end

