-- ==== Sys2Proof/Decode.lean ====
section
/-! DEFINITION. The command word (30_encoding.md R90): the decoder of R103, total on every 32-bit value and rejecting by
name, and the encoder of R98 and R105. -/

namespace Sys2Proof

/-- The field `w[hi:lo]`, read as an unsigned integer (00_scope.md R8). -/
def bits (w : Word) (hi lo : Nat) : Nat := w.toNat / 2 ^ lo % 2 ^ (hi + 1 - lo)

/-- Why a word is no command (30_encoding.md R103). -/
inductive DecodeError where
  /-- OPCODE is 0x00 or 0x0F to 0xFF (R99). -/
  | badOpcode
  /-- A reserved bit, or a field the command does not use, is not 0 (R96, R97). -/
  | rsvdBits
deriving DecidableEq, Repr

/-- `w` is the command `i` when the fields that must be 0 are 0 (30_encoding.md R96, R97). -/
def requireZero (mustBeZero : List Nat) (i : Instr) : Except DecodeError Instr :=
  if mustBeZero.all (· == 0) then .ok i else .error .rsvdBits

/-- The decoding procedure of 30_encoding.md R103. Bit 31 (GO) is no part of a command's identity. -/
def decode (w : Word) : Except DecodeError Instr :=
  match bits w 7 0 with
  | 0x01 => requireZero [bits w 30 8] .aesEcb
  | 0x02 => requireZero [bits w 16 8, bits w 30 20] (.cmac (bits w 19 17))
  | 0x03 => requireZero [bits w 30 8] .s1
  | 0x04 => requireZero [bits w 30 8] .k1
  | 0x05 => requireZero [bits w 30 8] .k2
  | 0x06 => requireZero [bits w 30 8] .k3
  | 0x07 => requireZero [bits w 30 8] .k4
  | 0x08 => requireZero [bits w 30 8] .id128
  | 0x09 => requireZero [bits w 30 13] (.ccmEnc (bits w 12 8))
  | 0x0A => requireZero [bits w 30 13] (.ccmDec (bits w 12 8))
  | 0x0B => requireZero [bits w 30 8] .nonceNet
  | 0x0C => requireZero [bits w 30 8] .nonceProxy
  | 0x0D => requireZero [bits w 15 8, bits w 30 17] (.nonceApp (bits w 16 16 == 1))
  | 0x0E => requireZero [bits w 15 8, bits w 30 17] (.nonceDev (bits w 16 16 == 1))
  | _ => .error .badOpcode

/-- OPCODE of a command (30_encoding.md R98). -/
def opcodeOf : Instr → Nat
  | .aesEcb => 0x01
  | .cmac _ => 0x02
  | .s1 => 0x03
  | .k1 => 0x04
  | .k2 => 0x05
  | .k3 => 0x06
  | .k4 => 0x07
  | .id128 => 0x08
  | .ccmEnc _ => 0x09
  | .ccmDec _ => 0x0A
  | .nonceNet => 0x0B
  | .nonceProxy => 0x0C
  | .nonceApp _ => 0x0D
  | .nonceDev _ => 0x0E

/-- MICSZ of a command, 0 where it uses none (30_encoding.md R92, R97). -/
def micszOf : Instr → Nat
  | .ccmEnc micsz => micsz
  | .ccmDec micsz => micsz
  | .aesEcb | .cmac _ | .s1 | .k1 | .k2 | .k3 | .k4 | .id128 => 0
  | .nonceNet | .nonceProxy | .nonceApp _ | .nonceDev _ => 0

/-- ASZMIC of a command, 0 where it uses none (30_encoding.md R93, R97). -/
def aszmicOf : Instr → Nat
  | .nonceApp aszmic => aszmic.toNat
  | .nonceDev aszmic => aszmic.toNat
  | .aesEcb | .cmac _ | .s1 | .k1 | .k2 | .k3 | .k4 | .id128 => 0
  | .ccmEnc _ | .ccmDec _ | .nonceNet | .nonceProxy => 0

/-- SEGCNT of a command, 0 where it uses none (30_encoding.md R94, R97). -/
def segcntOf : Instr → Nat
  | .cmac segcnt => segcnt
  | .aesEcb | .s1 | .k1 | .k2 | .k3 | .k4 | .id128 => 0
  | .ccmEnc _ | .ccmDec _ | .nonceNet | .nonceProxy | .nonceApp _ | .nonceDev _ => 0

/-- The word that starts the command: GO = 1 and the fields of 30_encoding.md R90, as R105's `go` writes it. -/
def encode (i : Instr) : Word :=
  BitVec.ofNat 32 (2 ^ 31 + segcntOf i * 2 ^ 17 + aszmicOf i * 2 ^ 16 + micszOf i * 2 ^ 8 + opcodeOf i)

/-- The command the decoder reads from the bits the opcode table numbers (one 32-bit word). -/
def decodeTableWord (nbits w : Nat) : Option Instr :=
  match decode (BitVec.ofNat 32 (w % 2 ^ nbits)) with
  | .ok i => some i
  | .error _ => none

end Sys2Proof
end

