-- ==== Sys2Proof/Machine/Bytes.lean ====
section
/-! DEFINITION. The operators on byte strings (00_scope.md R9) and the byte order of bus words (20_memory.md R65). -/

namespace Sys2Proof.Machine

/-- `zeros(n)` (R9). -/
def zeros (n : Nat) : Bytes := List.replicate n 0

/-- `a XOR b`, bytewise (R9). -/
def xorBytes (a b : Bytes) : Bytes := List.zipWith (· ^^^ ·) a b

/-- `b[i]`, and 0 past the end (no rule reads there). -/
def byteAt (b : Bytes) (i : Nat) : Byte := b.getD i 0

/-- `b[off..off+n)` (R8). -/
def slice (b : Bytes) (off n : Nat) : Bytes := (b.drop off).take n

/-- `first(b, n)` (R9). -/
def firstBytes (b : Bytes) (n : Nat) : Bytes := slice b 0 n

/-- `last(b, n)` (R9). -/
def lastBytes (b : Bytes) (n : Nat) : Bytes := slice b (b.length - n) n

/-- `be16(v)`: two bytes, the high byte first (R9). -/
def be16 (v : Nat) : Bytes := [BitVec.ofNat 8 (v / 2 ^ 8), BitVec.ofNat 8 v]

/-- `be32(v)`: four bytes, the high byte first (R9). -/
def be32 (v : Nat) : Bytes :=
  [BitVec.ofNat 8 (v / 2 ^ 24), BitVec.ofNat 8 (v / 2 ^ 16), BitVec.ofNat 8 (v / 2 ^ 8), BitVec.ofNat 8 v]

/-- The 16-byte blocks of a string whose length is a multiple of 16 (44_ccm.md R194, R195). -/
def blocks16 (b : Bytes) : List Bytes := (List.range (b.length / 16)).map fun i => slice b (16 * i) 16

/-- Zero bytes up to the next multiple of 16 (44_ccm.md R194, R195). -/
def padZero16 (b : Bytes) : Bytes := b ++ zeros ((16 - b.length % 16) % 16)

/-- The number a little-endian byte string stands for on the bus (20_memory.md R65). -/
def leWord : Bytes → Word
  | [] => 0
  | b :: bs => b.setWidth 32 ||| leWord bs <<< 8

/-- The low `n` bytes of a bus word, the lowest-addressed first (20_memory.md R65). -/
def leBytes (n : Nat) (v : Word) : Bytes := (List.range n).map fun i => (v >>> (8 * i)).setWidth 8

end Sys2Proof.Machine
end

