-- ==== Sys2Proof/Config.lean ====
section
/-! DEFINITION. What one implementation fixes (00_scope.md R6), the two OPEN parameters, and the free values. -/

namespace Sys2Proof

/-- The parameters of R6 that differ between engines. They stand in the state, never change, and a statement about
every state holds for every value of them (93_implementation_defined.md I16 to I18; log 7). -/
structure Config where
  /-- BUF_SIZE: bytes in BUF (R6, D4). -/
  bufSize : Nat
  /-- HAS_PROXY_NONCE (45_nonce.md R223, D26). -/
  hasProxyNonce : Bool
  /-- PROXY_NONCE_PAD_BYTE1 (45_nonce.md R223, D25). -/
  proxyNoncePadByte1 : Bool
deriving DecidableEq, Repr

/-- The values R6 gives the parameters. -/
def Config.default : Config := ⟨1024, true, false⟩

/-- The sizes R6 allows BUF: it fits at window offsets 0x400 to 0x7FF. -/
abbrev Config.Legal (c : Config) : Prop := 64 ≤ c.bufSize ∧ c.bufSize ≤ 1024

/-- WINDOW_SIZE (R6). -/
def Config.windowSize : Nat := 0x800

/-- The window offset of BUF[0] (10_state.md R40). -/
def Config.bufBase : Nat := 0x400

/-- NSEG, the number of segment descriptors (R6). -/
def Config.nseg : Nat := 4

/-- ID_VALUE (R6, 10_state.md R24). -/
def Config.idValue : Word := 0x4D434501#32

/-- ENGINE_BASE: OPEN (R6, 93_implementation_defined.md I14; log 8). -/
opaque Config.engineBase : Nat

/-- IRQ_LINE: OPEN (R6, 93_implementation_defined.md I15; log 8). -/
opaque Config.irqLine : Nat

/-- FREE VALUE. Draw number `draw` of an unspecified byte at BUF offset `k`: BUF after a reset (70_reset_and_hazards.md
R271), a BUF read while busy (20_memory.md R69), the output of a failed CCM_DEC (44_ccm.md R205). Nothing constrains
it (logs 3, 4, 11, 12). -/
opaque Config.freeByte (draw k : Nat) : Byte

end Sys2Proof
end

