-- ==== Sys2Proof/Machine/State.lean ====
section
/-! DEFINITION. Everything the spec gives the engine to hold (10_state.md), as plain data, and its value at reset.
ID and `irq` have no storage of their own: ID is a constant (10_state.md R24) and `irq` is computed from four stored
bits (60_exceptions.md R249). -/

namespace Sys2Proof.Machine

/-- STATUS.ERRCODE (60_exceptions.md R243). Codes 4 to 15 are never produced, so no constructor stands for them. -/
inductive ErrCode where
  /-- 0: the command completed. -/
  | ok
  /-- 1: a failed check of 60_exceptions.md R245. -/
  | invalidParameters
  /-- 2: the MIC did not match; CCM_DEC only. -/
  | authenticationFailed
  /-- 3: declared and never raised (60_exceptions.md R247; log 15). -/
  | cryptoEngineFailure
deriving DecidableEq, Repr

/-- STATUS.ERRDETAIL (60_exceptions.md R244). Codes 8 to 255 are never produced. -/
inductive ErrDetail where
  /-- 0: no InvalidParameters. -/
  | noDetail
  /-- 1 -/
  | badOpcode
  /-- 2 -/
  | rsvdBits
  /-- 3 -/
  | micTooLarge
  /-- 4 -/
  | micUnsupported
  /-- 5 -/
  | segcnt
  /-- 6 -/
  | aadTooLong
  /-- 7 -/
  | range
deriving DecidableEq, Repr

/-- One segment descriptor SEGn_OFF, SEGn_LEN (10_state.md R39). -/
structure Seg where
  off : Half
  len : Half
deriving DecidableEq, Repr

/-- The operand registers (10_state.md R34 to R39), each as its stored bits; the reserved bits hold nothing (R23). -/
structure OperandRegs where
  keyOff : Half
  nonceOff : Half
  aadOff : Half
  aadLen : Half
  msgOff : Half
  msgLen : Half
  outOff : Half
  ivIndex : Word
  seq : Word
  addr : Word
  seg0 : Seg
  seg1 : Seg
  seg2 : Seg
  seg3 : Seg
deriving DecidableEq, Repr

/-- The operand buffer (10_state.md R40). `cells` lists the bytes written since the last reset, addresses (BUF offsets)
strictly rising; a byte not listed is unspecified (70_reset_and_hazards.md R271) and reads as the free draw number
`draw` (log 3). -/
structure Buf where
  cells : List Host.Cell
  draw : Nat
deriving DecidableEq, Repr

/-- The pending command: what the engine copies at an accepted start (10_state.md R46, 20_memory.md R70). -/
structure Snapshot where
  cmd : BitVec 31
  regs : OperandRegs
  buf : Buf
deriving DecidableEq, Repr

/-- One bus access of a host: a bus address, a width in bits, and for a write the data, the low bits of 32 (20_memory.md R62
to R65; log 20). -/
inductive Access where
  | read (addr bits : Nat)
  | write (addr bits : Nat) (data : Word)
deriving DecidableEq, Repr

/-- Whose turn it is in the total order of 20_memory.md R75 (log 1). -/
inductive Turn where
  /-- a bus access reaches the window -/
  | host (a : Access)
  /-- the platform asserts the reset input (70_reset_and_hazards.md R270) -/
  | resetInput
  /-- the engine completes the pending command, if there is one (60_exceptions.md R242) -/
  | engine
deriving DecidableEq, Repr

/-- The whole machine. -/
structure State where
  /-- the parameters of this engine (00_scope.md R6); no step changes them -/
  cfg : Config
  /-- CMD[30:0]; GO is not stored (10_state.md R25) -/
  cmd : BitVec 31
  /-- the pending command; it exists exactly while STATUS.BUSY = 1 (10_state.md R27, R46; log 6) -/
  pending : Option Snapshot
  /-- STATUS.DONE (10_state.md R28) -/
  done : Bool
  /-- STATUS.BUSYERR (10_state.md R29) -/
  busyErr : Bool
  /-- STATUS.ERRCODE (10_state.md R30) -/
  errCode : ErrCode
  /-- STATUS.ERRDETAIL (10_state.md R31) -/
  errDetail : ErrDetail
  /-- IRQ_EN.DONE_IE (10_state.md R33) -/
  doneIe : Bool
  /-- IRQ_EN.BUSYERR_IE (10_state.md R33) -/
  busyErrIe : Bool
  /-- the operand registers (10_state.md R34 to R39) -/
  regs : OperandRegs
  /-- BUF (10_state.md R40) -/
  buf : Buf
  /-- the model's own: the turns to come, earliest first (log 1) -/
  schedule : List Turn
  /-- the model's own: what the engine answered the last host read, if any (log 5) -/
  readData : Option Word
  /-- the model's own: the number of the next free draw (log 4) -/
  draws : Nat
deriving DecidableEq, Repr

/-- The machine stops with one of these. The engine itself takes no trap (60_exceptions.md R252): every command error is
a next state. -/
inductive Fault where
  /-- Raised by a host turn whose bus address is outside the window: no address of the engine, and what the platform does
  there is OPEN (20_memory.md R61; log 8). Safe: a run that goes there has no next state. -/
  | outsideWindow
deriving DecidableEq, Repr

/-- No meaning is given. -/
inductive Refusal where
  /-- An instruction whose arm of `exec` has no meaning yet; no arm raises it. Safe. -/
  | notModelled (mnemonic : String)
  /-- Raised by a host turn that makes an access the engine gives no meaning: an 8- or 16-bit register access, a
  misaligned one, one of another width (20_memory.md R64; log 9). Safe: nothing can be proved past it. -/
  | unsupportedAccess
deriving DecidableEq, Repr

/-- All operand registers 0 (10_state.md R48). -/
def OperandRegs.zero : OperandRegs :=
  { keyOff := 0, nonceOff := 0, aadOff := 0, aadLen := 0, msgOff := 0, msgLen := 0, outOff := 0
    ivIndex := 0, seq := 0, addr := 0, seg0 := ⟨0, 0⟩, seg1 := ⟨0, 0⟩, seg2 := ⟨0, 0⟩, seg3 := ⟨0, 0⟩ }

/-- The machine right after reset (10_state.md R48, 70_reset_and_hazards.md R270, R271). The parameters have the values
of 00_scope.md R6; `schedule`, `readData` and the two draw numbers are the model's own (logs 1, 4, 5). -/
def State.reset : State :=
  { cfg := Config.default
    cmd := 0
    pending := none
    done := false
    busyErr := false
    errCode := .ok
    errDetail := .noDetail
    doneIe := false
    busyErrIe := false
    regs := OperandRegs.zero
    buf := ⟨[], 0⟩
    schedule := []
    readData := none
    draws := 1 }

end Sys2Proof.Machine
end

