-- ==== Sys2Proof/Machine/Flags.lean ====
section
/-! DEFINITION. The STATUS and IRQ_EN fields as the bus sees them (10_state.md R26 to R33) and the interrupt output
(60_exceptions.md R249). No command reads a flag (10_state.md R44). -/

namespace Sys2Proof.Machine

/-- STATUS.BUSY: a command is pending (10_state.md R27, R46; log 6). -/
def State.busy (s : State) : Bool := s.pending.isSome

/-- ERRCODE as STATUS shows it (60_exceptions.md R243). -/
def errCodeNum : ErrCode → Nat
  | .ok => 0
  | .invalidParameters => 1
  | .authenticationFailed => 2
  | .cryptoEngineFailure => 3

/-- ERRDETAIL as STATUS shows it (60_exceptions.md R244). -/
def errDetailNum : ErrDetail → Nat
  | .noDetail => 0
  | .badOpcode => 1
  | .rsvdBits => 2
  | .micTooLarge => 3
  | .micUnsupported => 4
  | .segcnt => 5
  | .aadTooLong => 6
  | .range => 7

/-- The word a read of STATUS returns: [0] BUSY, [1] DONE, [2] BUSYERR, [7:4] ERRCODE, [15:8] ERRDETAIL, the rest 0
(10_state.md R22, R26). -/
def State.statusWord (s : State) : Word :=
  BitVec.ofNat 32 (s.busy.toNat + 2 * s.done.toNat + 4 * s.busyErr.toNat + 16 * errCodeNum s.errCode
    + 256 * errDetailNum s.errDetail)

/-- The word a read of IRQ_EN returns (10_state.md R33). -/
def State.irqEnWord (s : State) : Word := BitVec.ofNat 32 (s.doneIe.toNat + 2 * s.busyErrIe.toNat)

/-- The interrupt output, a level (60_exceptions.md R249). -/
def State.irq (s : State) : Bool := (s.done && s.doneIe) || (s.busyErr && s.busyErrIe)

/-- What the engine drives on a platform interrupt input: `irq` on IRQ_LINE, nothing on another (60_exceptions.md R251). -/
def State.drivesLine (s : State) (line : Nat) : Bool := s.irq && line == Config.irqLine

/-- A host write of STATUS: bits 1 and 2 clear DONE and BUSYERR, every other bit is ignored (10_state.md R32). -/
def State.writeStatus (s : State) (v : Word) : State :=
  { s with done := s.done && !v.getLsbD 1, busyErr := s.busyErr && !v.getLsbD 2 }

/-- A host write of IRQ_EN: bits [31:2] are ignored (10_state.md R33). -/
def State.writeIrqEn (s : State) (v : Word) : State :=
  { s with doneIe := v.getLsbD 0, busyErrIe := v.getLsbD 1 }

end Sys2Proof.Machine
end

