-- ==== Sys2Proof/Machine/Ops.lean ====
section
/-! DEFINITION. The operations the commands and the bus share: BUF reads and writes (00_scope.md R10), the start of a
command (60_exceptions.md R241), its completion with or without an error (R242 to R248), and the reset input
(70_reset_and_hazards.md R270). -/

namespace Sys2Proof.Machine

/-! ### BUF -/

/-- The byte listed at address `k`, if any. -/
def cellAt : List Host.Cell → Nat → Option Byte
  | [], _ => none
  | (a, v) :: cs, k => if a = k then some v else cellAt cs k

/-- List the byte `v` at address `k`, keeping the addresses strictly rising. -/
def putCell : List Host.Cell → Nat → Byte → List Host.Cell
  | [], k, v => [(k, v)]
  | (a, w) :: cs, k, v =>
    if k < a then (k, v) :: (a, w) :: cs
    else if k = a then (k, v) :: cs
    else (a, w) :: putCell cs k v

/-- Addresses strictly rising, all above `lo` where there is one. -/
def risingFrom : Option Nat → List Host.Cell → Bool
  | _, [] => true
  | lo, (a, _) :: cs => (match lo with | none => true | some l => decide (l < a)) && risingFrom (some a) cs

/-- The canonical form of BUF: addresses strictly rising and below BUF_SIZE. A listed byte is a value and an unlisted one
is unspecified, so no entry says what an unlisted address says, and buffers with the same bytes specified alike are
equal lists (log 3). -/
def Buf.wf (size : Nat) (b : Buf) : Bool := risingFrom none b.cells && b.cells.all fun c => decide (c.1 < size)

/-- What a byte not written since the last reset reads as: the free draw of this buffer (70_reset_and_hazards.md R271;
log 3). -/
def Buf.unlisted (b : Buf) (k : Nat) : Byte := Config.freeByte b.draw k

/-- `BUF[k]`. -/
def Buf.get (b : Buf) (k : Nat) : Byte := (cellAt b.cells k).getD (b.unlisted k)

/-- `BUF[k] <- v`. -/
def Buf.set (b : Buf) (k : Nat) (v : Byte) : Buf := { b with cells := putCell b.cells k v }

/-- `MemRead(off, n)` (00_scope.md R10, 20_memory.md R82). -/
def Buf.read (b : Buf) (off n : Nat) : Bytes := (List.range n).map fun i => b.get (off + i)

/-- `MemWrite(off, len(bs), bs)` (00_scope.md R10, 20_memory.md R82). -/
def Buf.write (b : Buf) (off : Nat) : Bytes → Buf
  | [] => b
  | v :: vs => (b.set off v).write (off + 1) vs

/-- `n` unspecified bytes at BUF offset `off`: the free draw number `draw` (log 4). -/
def freeBytes (draw off n : Nat) : Bytes := (List.range n).map fun i => Config.freeByte draw (off + i)

/-! ### The start of a command -/

/-- The snapshot of CMD, every operand register and the whole of BUF (20_memory.md R70). -/
def State.capture (s : State) : Snapshot := ⟨s.cmd, s.regs, s.buf⟩

/-- An accepted start (60_exceptions.md R241): store CMD[30:0], take the snapshot, BUSY <- 1, DONE, ERRCODE and ERRDETAIL
<- 0; BUSYERR stays. -/
def State.startCommand (s : State) (v : BitVec 31) : State :=
  { s with
    cmd := v
    pending := some ⟨v, s.regs, s.buf⟩
    done := false
    errCode := .ok
    errDetail := .noDetail }

/-- What a command reads (20_memory.md R70): the pending snapshot. Off a pending command, where no step runs one, the
live state stands in (log 13). -/
def State.snapshot (s : State) : Snapshot := s.pending.getD s.capture

/-! ### The completion of a command, and the two errors that can end it -/

/-- Completion, one atomic step (60_exceptions.md R242): the buffer with the command's writes, ERRCODE, ERRDETAIL, BUSY <- 0
and DONE <- 1. -/
def State.complete (s : State) (code : ErrCode) (detail : ErrDetail) (buf : Buf) : State :=
  { s with pending := none, done := true, errCode := code, errDetail := detail, buf := buf }

/-- The command succeeds with one `MemWrite(off, len(bs), bs)` (60_exceptions.md R242, R243). -/
def State.succeed (s : State) (off : Nat) (bs : Bytes) : State :=
  s.complete .ok .noDetail (s.buf.write off bs)

/-- `raise InvalidParameters(detail)`: ERRCODE = 1, the detail, and no BUF byte changes (60_exceptions.md R246). -/
def State.raiseInvalid (s : State) (detail : ErrDetail) : State :=
  s.complete .invalidParameters detail s.buf

/-- `raise AuthenticationFailed`: ERRCODE = 2, ERRDETAIL = 0, and the `n` output bytes at `off` unspecified, a fresh draw
(60_exceptions.md R248, 44_ccm.md R205; log 12). -/
def State.raiseAuthenticationFailed (s : State) (off n : Nat) : State :=
  { s.complete .authenticationFailed .noDetail (s.buf.write off (freeBytes s.draws off n)) with
    draws := s.draws + 1 }

/-! ### Reset -/

/-- The reset input (70_reset_and_hazards.md R270 to R272): every register at its reset value, the pending command gone,
BUF a fresh draw in every byte. The parameters, the turns to come, the host's last answer and the draw count are no state
of the engine that a reset could change (log 14). -/
def State.assertReset (s : State) : State :=
  { State.reset with
    cfg := s.cfg
    buf := ⟨[], s.draws⟩
    schedule := s.schedule
    readData := s.readData
    draws := s.draws + 1 }

end Sys2Proof.Machine
end

