-- ==== Sys2Proof/Machine/Operands.lean ====
section
/-! DEFINITION. The operand forms (30_encoding.md R101, 20_memory.md R82): the registers by name and offset, the regions
they name, and the range check (20_memory.md R72). -/

namespace Sys2Proof.Machine

/-! ### The register file by name -/

/-- The operand registers (10_state.md R34 to R39). -/
inductive OpReg where
  | keyOff | nonceOff | aadOff | aadLen | msgOff | msgLen | outOff
  | ivIndex | seq | addr
  | seg0Off | seg0Len | seg1Off | seg1Len | seg2Off | seg2Len | seg3Off | seg3Len
deriving DecidableEq, Repr

/-- The registers of the window (10_state.md R22). -/
inductive Reg where
  /-- ID -/
  | ident
  /-- CMD -/
  | cmd
  /-- STATUS -/
  | status
  /-- IRQ_EN -/
  | irqEn
  /-- an operand register -/
  | operand (r : OpReg)
deriving DecidableEq, Repr

/-- The window offset of an operand register (10_state.md R22). -/
def OpReg.offset : OpReg → Nat
  | .keyOff => 0x010
  | .nonceOff => 0x014
  | .aadOff => 0x018
  | .aadLen => 0x01C
  | .msgOff => 0x020
  | .msgLen => 0x024
  | .outOff => 0x028
  | .ivIndex => 0x02C
  | .seq => 0x030
  | .addr => 0x034
  | .seg0Off => 0x040
  | .seg0Len => 0x044
  | .seg1Off => 0x048
  | .seg1Len => 0x04C
  | .seg2Off => 0x050
  | .seg2Len => 0x054
  | .seg3Off => 0x058
  | .seg3Len => 0x05C

/-- The window offset of a register (10_state.md R22). -/
def Reg.offset : Reg → Nat
  | .ident => 0x000
  | .cmd => 0x004
  | .status => 0x008
  | .irqEn => 0x00C
  | .operand r => r.offset

/-- Every register, in the order of the map (10_state.md R22). -/
def allRegs : List Reg :=
  [.ident, .cmd, .status, .irqEn,
   .operand .keyOff, .operand .nonceOff, .operand .aadOff, .operand .aadLen, .operand .msgOff, .operand .msgLen,
   .operand .outOff, .operand .ivIndex, .operand .seq, .operand .addr,
   .operand .seg0Off, .operand .seg0Len, .operand .seg1Off, .operand .seg1Len,
   .operand .seg2Off, .operand .seg2Len, .operand .seg3Off, .operand .seg3Len]

/-- The register at a window offset; none at a reserved one (10_state.md R41). -/
def regAt (off : Nat) : Option Reg := allRegs.find? fun r => r.offset == off

/-- The word a read of an operand register returns: the stored bits, the reserved bits 0 (10_state.md R23). -/
def OperandRegs.read (g : OperandRegs) : OpReg → Word
  | .keyOff => g.keyOff.setWidth 32
  | .nonceOff => g.nonceOff.setWidth 32
  | .aadOff => g.aadOff.setWidth 32
  | .aadLen => g.aadLen.setWidth 32
  | .msgOff => g.msgOff.setWidth 32
  | .msgLen => g.msgLen.setWidth 32
  | .outOff => g.outOff.setWidth 32
  | .ivIndex => g.ivIndex
  | .seq => g.seq
  | .addr => g.addr
  | .seg0Off => g.seg0.off.setWidth 32
  | .seg0Len => g.seg0.len.setWidth 32
  | .seg1Off => g.seg1.off.setWidth 32
  | .seg1Len => g.seg1.len.setWidth 32
  | .seg2Off => g.seg2.off.setWidth 32
  | .seg2Len => g.seg2.len.setWidth 32
  | .seg3Off => g.seg3.off.setWidth 32
  | .seg3Len => g.seg3.len.setWidth 32

/-- A write of an operand register: the reserved bits are dropped (10_state.md R23). -/
def OperandRegs.write (g : OperandRegs) (r : OpReg) (v : Word) : OperandRegs :=
  match r with
  | .keyOff => { g with keyOff := v.setWidth 16 }
  | .nonceOff => { g with nonceOff := v.setWidth 16 }
  | .aadOff => { g with aadOff := v.setWidth 16 }
  | .aadLen => { g with aadLen := v.setWidth 16 }
  | .msgOff => { g with msgOff := v.setWidth 16 }
  | .msgLen => { g with msgLen := v.setWidth 16 }
  | .outOff => { g with outOff := v.setWidth 16 }
  | .ivIndex => { g with ivIndex := v }
  | .seq => { g with seq := v }
  | .addr => { g with addr := v }
  | .seg0Off => { g with seg0 := { g.seg0 with off := v.setWidth 16 } }
  | .seg0Len => { g with seg0 := { g.seg0 with len := v.setWidth 16 } }
  | .seg1Off => { g with seg1 := { g.seg1 with off := v.setWidth 16 } }
  | .seg1Len => { g with seg1 := { g.seg1 with len := v.setWidth 16 } }
  | .seg2Off => { g with seg2 := { g.seg2 with off := v.setWidth 16 } }
  | .seg2Len => { g with seg2 := { g.seg2 with len := v.setWidth 16 } }
  | .seg3Off => { g with seg3 := { g.seg3 with off := v.setWidth 16 } }
  | .seg3Len => { g with seg3 := { g.seg3 with len := v.setWidth 16 } }

/-! ### Regions -/

/-- A region of BUF: an offset and a length in bytes (20_memory.md R72). -/
structure Region where
  off : Nat
  len : Nat
deriving DecidableEq, Repr

/-- `in_range(off, n)`, in unbounded arithmetic; a region of length 0 is never checked (20_memory.md R72). -/
def inRange (cfg : Config) (r : Region) : Bool := r.len == 0 || decide (r.off + r.len ≤ cfg.bufSize)

/-- The bytes of a region, from the snapshot (20_memory.md R70). -/
def Snapshot.bytes (p : Snapshot) (r : Region) : Bytes := p.buf.read r.off r.len

/-- (KEY_OFF, 16): every key is 16 bytes (00_scope.md R7). -/
def Snapshot.keyRegion (p : Snapshot) : Region := ⟨p.regs.keyOff.toNat, 16⟩

/-- (NONCE_OFF, 13): every nonce is 13 bytes (00_scope.md R7). -/
def Snapshot.nonceRegion (p : Snapshot) : Region := ⟨p.regs.nonceOff.toNat, 13⟩

/-- (AAD_OFF, AAD_LEN). -/
def Snapshot.aadRegion (p : Snapshot) : Region := ⟨p.regs.aadOff.toNat, p.regs.aadLen.toNat⟩

/-- `n` bytes at MSG_OFF, the length given by the command (30_encoding.md R101). -/
def Snapshot.msgRegion (p : Snapshot) (n : Nat) : Region := ⟨p.regs.msgOff.toNat, n⟩

/-- `n` bytes at OUT_OFF, the length given by the command (30_encoding.md R98). -/
def Snapshot.outRegion (p : Snapshot) (n : Nat) : Region := ⟨p.regs.outOff.toNat, n⟩

/-- MSG_LEN as a byte count (10_state.md R35). -/
def Snapshot.msgLen (p : Snapshot) : Nat := p.regs.msgLen.toNat

/-- (SEGn_OFF, SEGn_LEN) (10_state.md R39). -/
def Seg.region (g : Seg) : Region := ⟨g.off.toNat, g.len.toNat⟩

/-- SEG0 to SEG3, in order (10_state.md R39). -/
def OperandRegs.segs (g : OperandRegs) : List Seg := [g.seg0, g.seg1, g.seg2, g.seg3]

/-- The first `n` segment regions (42_cmac.md R146). -/
def Snapshot.segRegions (p : Snapshot) (n : Nat) : List Region := (p.regs.segs.take n).map Seg.region

/-- SRC = ADDR[15:0] (10_state.md R38). -/
def Snapshot.src (p : Snapshot) : Nat := p.regs.addr.toNat % 2 ^ 16

/-- DST = ADDR[31:16] (10_state.md R38). -/
def Snapshot.dst (p : Snapshot) : Nat := p.regs.addr.toNat / 2 ^ 16

/-! ### The range check -/

/-- The last check of 60_exceptions.md R245: if some region is out of range the command raises InvalidParameters(RANGE),
otherwise it goes on to `t`. -/
def State.ifInRange (s : State) (regions : List Region) (t : State) : State :=
  if regions.all (inRange s.cfg) then t else s.raiseInvalid .range

end Sys2Proof.Machine
end

