-- ==== Sys2Proof/Machine/Bus.lean ====
section
/-! DEFINITION. Host accesses to the window (20_memory.md R62 to R69) and the register access types (10_state.md R23). -/

namespace Sys2Proof.Machine

/-- The widths and alignments the window accepts: registers 32 bits at multiples of 4, BUF offsets 8 bits anywhere, 16
bits at even offsets, 32 bits at multiples of 4 (20_memory.md R62, R63). Everything else is unsupported (R64; log 9). -/
def supportedAccess (off bits : Nat) : Bool :=
  if off < Config.bufBase then bits == 32 && off % 4 == 0
  else bits == 8 || (bits == 16 && off % 2 == 0) || (bits == 32 && off % 4 == 0)

/-- Where a bus address falls in the window, if it does (20_memory.md R60; log 8). -/
def windowOffset (addr : Nat) : Option Nat :=
  if Config.engineBase ≤ addr ∧ addr < Config.engineBase + Config.windowSize then some (addr - Config.engineBase) else none

/-! ### Reads -/

/-- What a 32-bit read of a register returns, busy or not (10_state.md R22 to R41, 20_memory.md R69). -/
def State.readReg (s : State) : Reg → Word
  | .ident => Config.idValue
  | .cmd => s.cmd.setWidth 32
  | .status => s.statusWord
  | .irqEn => s.irqEnWord
  | .operand r => s.regs.read r

/-- What a 32-bit read below 0x400 returns; a reserved offset reads 0 (10_state.md R41). -/
def State.readRegOffset (s : State) (off : Nat) : Word :=
  match regAt off with
  | some r => s.readReg r
  | none => 0

/-- One byte of a BUF read: BUF[k] while idle (20_memory.md R65), a free draw while busy (R69; log 11), 0 past BUF_SIZE
(10_state.md R41; log 10). -/
def State.readBufByte (s : State) (k : Nat) : Byte :=
  if k < s.cfg.bufSize then (if s.busy then Config.freeByte s.draws k else s.buf.get k) else 0

/-- What a BUF read of `n` bytes at BUF offset `k` returns, little-endian (20_memory.md R65). -/
def State.readBufWord (s : State) (k n : Nat) : Word := leWord ((List.range n).map fun i => s.readBufByte (k + i))

/-- `BusRead` at a window offset (20_memory.md R62 to R69). A read changes no field (R67); the answer and the draw it used
are the model's own fields. -/
def busRead (s : State) (off bits : Nat) : Host.Outcome State Fault Refusal :=
  if supportedAccess off bits then
    if off < Config.bufBase then .next { s with readData := some (s.readRegOffset off) }
    else .next { s with
      readData := some (s.readBufWord (off - Config.bufBase) (bits / 8))
      draws := if s.busy then s.draws + 1 else s.draws }
  else .refused .unsupportedAccess

/-! ### Writes -/

/-- A write of CMD while idle: bits [30:0] are stored, and bit 31 (GO) starts the command (10_state.md R25, 60_exceptions.md
R241). -/
def State.writeCmd (s : State) (v : Word) : State :=
  if v.getLsbD 31 then s.startCommand (v.setWidth 31) else { s with cmd := v.setWidth 31 }

/-- A write of a register while idle (10_state.md R23); ID ignores it (R24). -/
def State.writeReg (s : State) (r : Reg) (v : Word) : State :=
  match r with
  | .ident => s
  | .cmd => s.writeCmd v
  | .status => s.writeStatus v
  | .irqEn => s.writeIrqEn v
  | .operand r => { s with regs := s.regs.write r v }

/-- A write below 0x400 while idle; a reserved offset ignores it (10_state.md R41). -/
def State.writeRegOffset (s : State) (off : Nat) (v : Word) : State :=
  match regAt off with
  | some r => s.writeReg r v
  | none => s

/-- The bytes a bus write stores at BUF offset `k`; one past BUF_SIZE is ignored (10_state.md R41; log 10). -/
def Buf.hostWrite (size : Nat) (b : Buf) (k : Nat) : Bytes → Buf
  | [] => b
  | v :: vs => (if k < size then b.set k v else b).hostWrite size (k + 1) vs

/-- `BusWrite` at a window offset (20_memory.md R62 to R68). While BUSY = 1 every write but one of STATUS is ignored and
sets BUSYERR (R68). -/
def busWrite (s : State) (off bits : Nat) (v : Word) : Host.Outcome State Fault Refusal :=
  if supportedAccess off bits then
    if s.busy && off != Reg.status.offset then .next { s with busyErr := true }
    else if off < Config.bufBase then .next (s.writeRegOffset off v)
    else .next { s with buf := s.buf.hostWrite s.cfg.bufSize (off - Config.bufBase) (leBytes (bits / 8) v) }
  else .refused .unsupportedAccess

/-- A host access at a bus address (20_memory.md R60, R61). -/
def hostAccess (s : State) : Access → Host.Outcome State Fault Refusal
  | .read addr bits =>
    match windowOffset addr with
    | some off => busRead s off bits
    | none => .fault .outsideWindow
  | .write addr bits v =>
    match windowOffset addr with
    | some off => busWrite s off bits v
    | none => .fault .outsideWindow

end Sys2Proof.Machine
end

