-- ==== Sys2Proof/Machine/BlockCipher.lean ====
section
/-! DEFINITION. The block cipher engine: AES-128, forward direction only (41_block_cipher.md R120 to R129), and the
command AES_ECB (R130). A block is a 16-byte string in the layout of R123: byte r + 4c is s[r][c]. -/

namespace Sys2Proof.Machine

/-- Multiplication by x in GF(2^8) modulo 0x11B (R121). -/
def xtime (a : Byte) : Byte := (a <<< 1) ^^^ (if a.getLsbD 7 then 0x1B#8 else 0x00#8)

/-- `xtime` applied `i` times (R121). -/
def xtimes : Nat → Byte → Byte
  | 0, a => a
  | i + 1, a => xtime (xtimes i a)

/-- Multiplication in GF(2^8): the XOR of `xtime^i(a)` over the bits i of `b` that are 1 (R121). -/
def gmul (a b : Byte) : Byte :=
  (List.range 8).foldl (fun acc i => if b.getLsbD i then acc ^^^ xtimes i a else acc) 0

/-- The S-box table, row x[7:4], column x[3:0] (R122). -/
def sboxRows : List Bytes := [
  [0x63, 0x7c, 0x77, 0x7b, 0xf2, 0x6b, 0x6f, 0xc5, 0x30, 0x01, 0x67, 0x2b, 0xfe, 0xd7, 0xab, 0x76],
  [0xca, 0x82, 0xc9, 0x7d, 0xfa, 0x59, 0x47, 0xf0, 0xad, 0xd4, 0xa2, 0xaf, 0x9c, 0xa4, 0x72, 0xc0],
  [0xb7, 0xfd, 0x93, 0x26, 0x36, 0x3f, 0xf7, 0xcc, 0x34, 0xa5, 0xe5, 0xf1, 0x71, 0xd8, 0x31, 0x15],
  [0x04, 0xc7, 0x23, 0xc3, 0x18, 0x96, 0x05, 0x9a, 0x07, 0x12, 0x80, 0xe2, 0xeb, 0x27, 0xb2, 0x75],
  [0x09, 0x83, 0x2c, 0x1a, 0x1b, 0x6e, 0x5a, 0xa0, 0x52, 0x3b, 0xd6, 0xb3, 0x29, 0xe3, 0x2f, 0x84],
  [0x53, 0xd1, 0x00, 0xed, 0x20, 0xfc, 0xb1, 0x5b, 0x6a, 0xcb, 0xbe, 0x39, 0x4a, 0x4c, 0x58, 0xcf],
  [0xd0, 0xef, 0xaa, 0xfb, 0x43, 0x4d, 0x33, 0x85, 0x45, 0xf9, 0x02, 0x7f, 0x50, 0x3c, 0x9f, 0xa8],
  [0x51, 0xa3, 0x40, 0x8f, 0x92, 0x9d, 0x38, 0xf5, 0xbc, 0xb6, 0xda, 0x21, 0x10, 0xff, 0xf3, 0xd2],
  [0xcd, 0x0c, 0x13, 0xec, 0x5f, 0x97, 0x44, 0x17, 0xc4, 0xa7, 0x7e, 0x3d, 0x64, 0x5d, 0x19, 0x73],
  [0x60, 0x81, 0x4f, 0xdc, 0x22, 0x2a, 0x90, 0x88, 0x46, 0xee, 0xb8, 0x14, 0xde, 0x5e, 0x0b, 0xdb],
  [0xe0, 0x32, 0x3a, 0x0a, 0x49, 0x06, 0x24, 0x5c, 0xc2, 0xd3, 0xac, 0x62, 0x91, 0x95, 0xe4, 0x79],
  [0xe7, 0xc8, 0x37, 0x6d, 0x8d, 0xd5, 0x4e, 0xa9, 0x6c, 0x56, 0xf4, 0xea, 0x65, 0x7a, 0xae, 0x08],
  [0xba, 0x78, 0x25, 0x2e, 0x1c, 0xa6, 0xb4, 0xc6, 0xe8, 0xdd, 0x74, 0x1f, 0x4b, 0xbd, 0x8b, 0x8a],
  [0x70, 0x3e, 0xb5, 0x66, 0x48, 0x03, 0xf6, 0x0e, 0x61, 0x35, 0x57, 0xb9, 0x86, 0xc1, 0x1d, 0x9e],
  [0xe1, 0xf8, 0x98, 0x11, 0x69, 0xd9, 0x8e, 0x94, 0x9b, 0x1e, 0x87, 0xe9, 0xce, 0x55, 0x28, 0xdf],
  [0x8c, 0xa1, 0x89, 0x0d, 0xbf, 0xe6, 0x42, 0x68, 0x41, 0x99, 0x2d, 0x0f, 0xb0, 0x54, 0xbb, 0x16]]

/-- `SBOX[x]` (R122). -/
def sbox (x : Byte) : Byte := (sboxRows.getD (x.toNat / 16) []).getD (x.toNat % 16) 0

/-- SubBytes (R124). -/
def subBytes (s : Bytes) : Bytes := s.map sbox

/-- ShiftRows: s[r][c] <- s[r][(c + r) mod 4], with r = i mod 4 and c = i / 4 (R124). -/
def shiftRows (s : Bytes) : Bytes :=
  (List.range 16).map fun i => byteAt s (i % 4 + 4 * ((i / 4 + i % 4) % 4))

/-- One byte of MixColumns. The four rows of R124 are one row rotated: with a_r the column's bytes, row r is
2·a_r XOR 3·a_(r+1) XOR a_(r+2) XOR a_(r+3), indices mod 4. -/
def mixByte (s : Bytes) (c r : Nat) : Byte :=
  gmul (byteAt s (4 * c + r % 4)) 2 ^^^ gmul (byteAt s (4 * c + (r + 1) % 4)) 3
    ^^^ byteAt s (4 * c + (r + 2) % 4) ^^^ byteAt s (4 * c + (r + 3) % 4)

/-- MixColumns (R124). -/
def mixColumns (s : Bytes) : Bytes := (List.range 16).map fun i => mixByte s (i / 4) (i % 4)

/-- Rcon[1] to Rcon[10], with an unused entry 0 (R125). -/
def rcon (i : Nat) : Byte := [0x00, 0x01, 0x02, 0x04, 0x08, 0x10, 0x20, 0x40, 0x80, 0x1b, 0x36].getD i 0

/-- RotWord: (a0,a1,a2,a3) to (a1,a2,a3,a0) (R125). -/
def rotWord (t : Bytes) : Bytes := [byteAt t 1, byteAt t 2, byteAt t 3, byteAt t 0]

/-- SubWord (R125). -/
def subWord (t : Bytes) : Bytes := t.map sbox

/-- The next key word W[j], from the words W[0..j-1] (R125). -/
def nextKeyWord (w : List Bytes) (j : Nat) : Bytes :=
  let t := w.getD (j - 1) []
  let t' := if j % 4 = 0 then xorBytes (subWord (rotWord t)) [rcon (j / 4), 0x00, 0x00, 0x00] else t
  xorBytes (w.getD (j - 4) []) t'

/-- Key expansion: the 44 words W[0..43] (R125). -/
def expandKey (k : Bytes) : List Bytes :=
  (List.range 40).foldl (fun w n => w ++ [nextKeyWord w (n + 4)]) ((List.range 4).map fun j => slice k (4 * j) 4)

/-- AddRoundKey(i): s[r][c] <- s[r][c] XOR W[4i + c][r] (R124). -/
def addRoundKey (w : List Bytes) (i : Nat) (s : Bytes) : Bytes :=
  (List.range 16).map fun n => byteAt s n ^^^ byteAt (w.getD (4 * i + n / 4) []) (n % 4)

/-- One of the rounds 1 to 9 (R128). -/
def aesRound (w : List Bytes) (i : Nat) (s : Bytes) : Bytes := addRoundKey w i (mixColumns (shiftRows (subBytes s)))

/-- Round 10, which has no MixColumns (R128). -/
def aesLastRound (w : List Bytes) (s : Bytes) : Bytes := addRoundKey w 10 (shiftRows (subBytes s))

/-- `AES(k, b)`, the AES-128 forward cipher (R128). Every 16-byte key is valid (R126). -/
def aes (k b : Bytes) : Bytes :=
  let w := expandKey k
  aesLastRound w ((List.range 9).foldl (fun s n => aesRound w (n + 1) s) (addRoundKey w 0 b))

/-- AES_ECB (R130): 16 bytes at MSG_OFF under the key at KEY_OFF, to OUT_OFF. MSG_LEN is not read. -/
def execAesEcb (s : State) : Host.Outcome State Fault Refusal :=
  let p := s.snapshot
  .next (s.ifInRange [p.keyRegion, p.msgRegion 16, p.outRegion 16]
    (s.succeed (p.outRegion 16).off (aes (p.bytes p.keyRegion) (p.bytes (p.msgRegion 16)))))

end Sys2Proof.Machine
end

