-- ==== Sys2Proof/Machine/Ccm.lean ====
section
/-! DEFINITION. The CCM controller (44_ccm.md R190 to R202) and the commands CCM_ENC (R204) and CCM_DEC (R205). -/

namespace Sys2Proof.Machine

/-- The flags byte of B0 for a MIC of `m` bytes and an AAD of `a` bytes (R191; the commands use m = 4 and 8 only). -/
def ccmFlags (m a : Nat) : Byte :=
  BitVec.ofNat 8 ((if a > 0 then 0x40 else 0x00) ||| (((m - 2) / 2) <<< 3) ||| 0x01)

/-- The first MAC block B0 (R192). -/
def ccmB0 (nonce : Bytes) (m a msgLen : Nat) : Bytes := [ccmFlags m a] ++ nonce ++ be16 msgLen

/-- The counter block A_j (R193). -/
def ccmCounter (nonce : Bytes) (j : Nat) : Bytes := [0x01] ++ nonce ++ be16 j

/-- The keystream block S_j (R193). -/
def ccmStream (key nonce : Bytes) (j : Nat) : Bytes := aes key (ccmCounter nonce j)

/-- The CBC-MAC chain: X <- AES(key, X XOR B) for each block B in order (R194, R195). -/
def ccmChain (key x : Bytes) (blocks : List Bytes) : Bytes := blocks.foldl (fun x b => aes key (xorBytes x b)) x

/-- The AAD blocks; none when the AAD is empty (R194). -/
def ccmAadBlocks (aad : Bytes) : List Bytes :=
  if aad.length > 0 then blocks16 (padZero16 (be16 aad.length ++ aad)) else []

/-- The final chaining value Xn (R192, R194, R195). An empty message has no message block (R198). -/
def ccmXn (key nonce aad p : Bytes) (m : Nat) : Bytes :=
  let x0 := aes key (ccmB0 nonce m aad.length p.length)
  ccmChain key (ccmChain key x0 (ccmAadBlocks aad)) (blocks16 (padZero16 p))

/-- MIC = first(S_0 XOR Xn, M) (R196). -/
def ccmMic (key nonce aad p : Bytes) (m : Nat) : Bytes :=
  firstBytes (xorBytes (ccmStream key nonce 0) (ccmXn key nonce aad p m)) m

/-- S_1 ‖ ... ‖ S_m for `len` bytes, m = ceil(len / 16) (R197). -/
def ccmKeystream (key nonce : Bytes) (len : Nat) : Bytes :=
  (List.range ((len + 15) / 16)).flatMap fun j => ccmStream key nonce (j + 1)

/-- CTR, its own inverse (R197). -/
def ccmCtr (key nonce d : Bytes) : Bytes := xorBytes d (firstBytes (ccmKeystream key nonce d.length) d.length)

/-- Encryption: ciphertext then MIC (R199). -/
def ccmEncrypt (key nonce aad p : Bytes) (m : Nat) : Bytes := ccmCtr key nonce p ++ ccmMic key nonce aad p m

/-- Decryption and verification; `none` is AuthenticationFailed (R201). The comparison is equality of all the MIC's bytes
(R202). -/
def ccmDecrypt (key nonce aad c t : Bytes) (m : Nat) : Option Bytes :=
  let p := ccmCtr key nonce c
  if ccmMic key nonce aad p m = t then some p else none

/-- The parameter checks of R200, in their order: the first that fails. -/
def ccmCheck (micsz aadLen : Nat) : Option ErrDetail :=
  if micsz > 16 then some .micTooLarge
  else if micsz ≠ 4 ∧ micsz ≠ 8 then some .micUnsupported
  else if aadLen ≥ 0xFF00 then some .aadTooLong
  else none

/-- Run the checks of R200, and go on to `t` when all pass. -/
def State.ifCcmOk (s : State) (micsz aadLen : Nat) (t : State) : State :=
  match ccmCheck micsz aadLen with
  | some d => s.raiseInvalid d
  | none => t

/-- CCM_ENC (R204). -/
def execCcmEnc (micsz : Nat) (s : State) : Host.Outcome State Fault Refusal :=
  let p := s.snapshot
  .next (s.ifCcmOk micsz p.aadRegion.len
    (s.ifInRange [p.keyRegion, p.nonceRegion, p.aadRegion, p.msgRegion p.msgLen, p.outRegion (p.msgLen + micsz)]
      (s.succeed (p.outRegion (p.msgLen + micsz)).off
        (ccmEncrypt (p.bytes p.keyRegion) (p.bytes p.nonceRegion) (p.bytes p.aadRegion)
          (p.bytes (p.msgRegion p.msgLen)) micsz))))

/-- What CCM_DEC recovers from the snapshot: the plaintext, or `none` where the MIC does not match (R205). The input is
MSG_LEN bytes of ciphertext and then the MIC. -/
def ccmDecResult (micsz : Nat) (p : Snapshot) : Option Bytes :=
  let input := p.bytes (p.msgRegion (p.msgLen + micsz))
  ccmDecrypt (p.bytes p.keyRegion) (p.bytes p.nonceRegion) (p.bytes p.aadRegion)
    (slice input 0 p.msgLen) (slice input p.msgLen micsz) micsz

/-- CCM_DEC (R205). On a mismatch the output region is unspecified (60_exceptions.md R248; log 12). -/
def execCcmDec (micsz : Nat) (s : State) : Host.Outcome State Fault Refusal :=
  let p := s.snapshot
  let out := p.outRegion p.msgLen
  .next (s.ifCcmOk micsz p.aadRegion.len
    (s.ifInRange [p.keyRegion, p.nonceRegion, p.aadRegion, p.msgRegion (p.msgLen + micsz), out]
      (match ccmDecResult micsz p with
        | some plain => s.succeed out.off plain
        | none => s.raiseAuthenticationFailed out.off out.len)))

end Sys2Proof.Machine
end

