-- ==== Sys2Proof/Machine/Cmac.lean ====
section
/-! DEFINITION. The CMAC engine (42_cmac.md R140 to R145) and the command CMAC (R146). -/

namespace Sys2Proof.Machine

/-- A 16-byte block as a 128-bit integer, byte 0 the most significant (00_scope.md R8). -/
def blockToInt (b : Bytes) : BitVec 128 := b.foldl (fun acc v => (acc <<< 8) ||| v.setWidth 128) 0

/-- The 16-byte block of a 128-bit integer (00_scope.md R8). -/
def intToBlock (v : BitVec 128) : Bytes := (List.range 16).map fun i => (v >>> (8 * (15 - i))).setWidth 8

/-- Doubling in GF(2^128) (R141). -/
def dbl (l : Bytes) : Bytes :=
  let v := blockToInt l
  intToBlock (if v.getLsbD 127 then (v <<< 1) ^^^ 0x87#128 else v <<< 1)

/-- Subkey K1 (R142). -/
def cmacK1 (k : Bytes) : Bytes := dbl (aes k (zeros 16))

/-- Subkey K2 (R142). -/
def cmacK2 (k : Bytes) : Bytes := dbl (cmacK1 k)

/-- n = max(1, ceil(len(m) / 16)) (R143). -/
def cmacBlockCount (m : Bytes) : Nat := max 1 ((m.length + 15) / 16)

/-- The last block M_n (R143). -/
def cmacLastBlock (k m : Bytes) : Bytes :=
  let last := slice m (16 * (cmacBlockCount m - 1)) 16
  if 0 < m.length ∧ m.length % 16 = 0 then xorBytes last (cmacK1 k)
  else xorBytes (last ++ [0x80] ++ zeros (15 - last.length)) (cmacK2 k)

/-- `CMAC(k, m)` (R144). -/
def cmac (k m : Bytes) : Bytes :=
  let x := (List.range (cmacBlockCount m - 1)).foldl (fun x i => aes k (xorBytes x (slice m (16 * i) 16))) (zeros 16)
  aes k (xorBytes x (cmacLastBlock k m))

/-- CMAC over a sequence of segments: the tag of their concatenation (R145). -/
def cmacSegments (k : Bytes) (segments : List Bytes) : Bytes := cmac k segments.flatten

/-- CMAC (R146): the tag over the first SEGCNT segments under the key at KEY_OFF, to OUT_OFF. -/
def execCmac (segcnt : Nat) (s : State) : Host.Outcome State Fault Refusal :=
  let p := s.snapshot
  .next (if segcnt > Config.nseg then s.raiseInvalid .segcnt
    else s.ifInRange (p.keyRegion :: p.segRegions segcnt ++ [p.outRegion 16])
      (s.succeed (p.outRegion 16).off (cmacSegments (p.bytes p.keyRegion) ((p.segRegions segcnt).map p.bytes))))

end Sys2Proof.Machine
end

