-- ==== Sys2Proof/Machine/Kdf.lean ====
section
/-! DEFINITION. The key derivation functions (43_kdf.md R160 to R167) and their commands (R168 to R174). -/

namespace Sys2Proof.Machine

/-- ZERO_KEY (R161). -/
def zeroKey : Bytes := zeros 16

/-- "smk2" (R161). -/
def labelSmk2 : Bytes := [0x73, 0x6d, 0x6b, 0x32]

/-- "smk3" (R161). -/
def labelSmk3 : Bytes := [0x73, 0x6d, 0x6b, 0x33]

/-- "smk4" (R161). -/
def labelSmk4 : Bytes := [0x73, 0x6d, 0x6b, 0x34]

/-- "id64" then 0x01 (R161). -/
def infoId64 : Bytes := [0x69, 0x64, 0x36, 0x34, 0x01]

/-- "id6" then 0x01 (R161). -/
def infoId6 : Bytes := [0x69, 0x64, 0x36, 0x01]

/-- "id128" then 0x01 (R161). -/
def infoId128 : Bytes := [0x69, 0x64, 0x31, 0x32, 0x38, 0x01]

/-- s1 (R162). -/
def s1 (m : Bytes) : Bytes := cmac zeroKey m

/-- k1 (R163). -/
def k1 (ikm salt info : Bytes) : Bytes := cmac (cmac salt ikm) info

/-- k2 (R164): NID, EncryptionKey and PrivacyKey. -/
def k2 (n p : Bytes) : Byte × Bytes × Bytes :=
  let t := cmac (s1 labelSmk2) n
  let t1 := cmac t (p ++ [0x01])
  let t2 := cmac t (t1 ++ p ++ [0x02])
  let t3 := cmac t (t2 ++ p ++ [0x03])
  (byteAt t1 15 &&& 0x7F, t2, t3)

/-- The 33 output bytes of k2: NID, then EncryptionKey, then PrivacyKey (R171). -/
def k2Output (n p : Bytes) : Bytes :=
  let r := k2 n p
  r.1 :: (r.2.1 ++ r.2.2)

/-- k3 (R165). -/
def k3 (n : Bytes) : Bytes := lastBytes (cmac (cmac (s1 labelSmk3) n) infoId64) 8

/-- k4 (R166). -/
def k4 (n : Bytes) : Byte := byteAt (cmac (cmac (s1 labelSmk4) n) infoId6) 15 &&& 0x3F

/-- id128 (R167). -/
def id128 (n label : Bytes) : Bytes := k1 n (s1 label) infoId128

/-- S1 (R169): the label is SEG0; KEY_OFF is not read. -/
def execS1 (s : State) : Host.Outcome State Fault Refusal :=
  let p := s.snapshot
  .next (s.ifInRange [p.regs.seg0.region, p.outRegion 16]
    (s.succeed (p.outRegion 16).off (s1 (p.bytes p.regs.seg0.region))))

/-- K1 (R170): the salt is at KEY_OFF, ikm is SEG0, info is SEG1. -/
def execK1 (s : State) : Host.Outcome State Fault Refusal :=
  let p := s.snapshot
  .next (s.ifInRange [p.keyRegion, p.regs.seg0.region, p.regs.seg1.region, p.outRegion 16]
    (s.succeed (p.outRegion 16).off
      (k1 (p.bytes p.regs.seg0.region) (p.bytes p.keyRegion) (p.bytes p.regs.seg1.region))))

/-- K2 (R171): N is at KEY_OFF, P is SEG0; 33 bytes out. -/
def execK2 (s : State) : Host.Outcome State Fault Refusal :=
  let p := s.snapshot
  .next (s.ifInRange [p.keyRegion, p.regs.seg0.region, p.outRegion 33]
    (s.succeed (p.outRegion 33).off (k2Output (p.bytes p.keyRegion) (p.bytes p.regs.seg0.region))))

/-- K3 (R172): N is at KEY_OFF; 8 bytes out. -/
def execK3 (s : State) : Host.Outcome State Fault Refusal :=
  let p := s.snapshot
  .next (s.ifInRange [p.keyRegion, p.outRegion 8]
    (s.succeed (p.outRegion 8).off (k3 (p.bytes p.keyRegion))))

/-- K4 (R173): N is at KEY_OFF; 1 byte out. -/
def execK4 (s : State) : Host.Outcome State Fault Refusal :=
  let p := s.snapshot
  .next (s.ifInRange [p.keyRegion, p.outRegion 1]
    (s.succeed (p.outRegion 1).off [k4 (p.bytes p.keyRegion)]))

/-- ID128 (R174): N is at KEY_OFF, the label is SEG0. -/
def execId128 (s : State) : Host.Outcome State Fault Refusal :=
  let p := s.snapshot
  .next (s.ifInRange [p.keyRegion, p.regs.seg0.region, p.outRegion 16]
    (s.succeed (p.outRegion 16).off (id128 (p.bytes p.keyRegion) (p.bytes p.regs.seg0.region))))

end Sys2Proof.Machine
end

