-- ==== Sys2Proof/Machine/Nonce.lean ====
section
/-! DEFINITION. The nonce constructors (45_nonce.md R220 to R224) and their commands (R225 to R228). -/

namespace Sys2Proof.Machine

/-- The layout the network and proxy nonces share: tag, byte 1, H[2..7), two zero bytes, the IV index (R222, R223). -/
def pduNonce (tag byte1 : Byte) (h : Bytes) (iv : Nat) : Bytes :=
  [tag, byte1] ++ slice h 2 5 ++ [0x00, 0x00] ++ be32 iv

/-- The network nonce of a 7-byte header (R222); H[0] is ignored (R221). -/
def nonceNet (h : Bytes) (iv : Nat) : Bytes := pduNonce 0x00 (byteAt h 1) h iv

/-- The proxy nonce of a 7-byte header (R223). -/
def nonceProxy (cfg : Config) (h : Bytes) (iv : Nat) : Bytes :=
  if !cfg.hasProxyNonce then nonceNet h iv
  else if cfg.proxyNoncePadByte1 then pduNonce 0x03 0x00 h iv
  else pduNonce 0x03 (byteAt h 1) h iv

/-- The application nonces: SEQ bit 31 replaced by ASZMIC, the other fields big-endian (R224). -/
def nonceAppl (tag : Byte) (seq src dst iv : Nat) (aszmic : Bool) : Bytes :=
  [tag] ++ be32 (aszmic.toNat * 2 ^ 31 + seq % 2 ^ 31) ++ be16 src ++ be16 dst ++ be32 iv

/-- NONCE_NET (R225). MSG_LEN, SEQ and ADDR are not read. -/
def execNonceNet (s : State) : Host.Outcome State Fault Refusal :=
  let p := s.snapshot
  .next (s.ifInRange [p.msgRegion 7, p.outRegion 13]
    (s.succeed (p.outRegion 13).off (nonceNet (p.bytes (p.msgRegion 7)) p.regs.ivIndex.toNat)))

/-- NONCE_PROXY (R226). -/
def execNonceProxy (s : State) : Host.Outcome State Fault Refusal :=
  let p := s.snapshot
  .next (s.ifInRange [p.msgRegion 7, p.outRegion 13]
    (s.succeed (p.outRegion 13).off (nonceProxy s.cfg (p.bytes (p.msgRegion 7)) p.regs.ivIndex.toNat)))

/-- NONCE_APP, tag 0x01 (R227). -/
def execNonceApp (aszmic : Bool) (s : State) : Host.Outcome State Fault Refusal :=
  let p := s.snapshot
  .next (s.ifInRange [p.outRegion 13]
    (s.succeed (p.outRegion 13).off
      (nonceAppl 0x01 p.regs.seq.toNat p.src p.dst p.regs.ivIndex.toNat aszmic)))

/-- NONCE_DEV, tag 0x02 (R228). -/
def execNonceDev (aszmic : Bool) (s : State) : Host.Outcome State Fault Refusal :=
  let p := s.snapshot
  .next (s.ifInRange [p.outRegion 13]
    (s.succeed (p.outRegion 13).off
      (nonceAppl 0x02 p.regs.seq.toNat p.src p.dst p.regs.ivIndex.toNat aszmic)))

end Sys2Proof.Machine
end

