-- ==== Sys2Proof/Machine/Dispatch.lean ====
section
/-! DEFINITION. One arm per command: the completion step of that command (60_exceptions.md R242). -/

namespace Sys2Proof.Machine

def exec (i : Instr) (s : State) : Host.Outcome State Fault Refusal :=
  match i with
  | .aesEcb => Sys2Proof.Machine.execAesEcb s
  | .cmac segcnt => Sys2Proof.Machine.execCmac segcnt s
  | .s1 => Sys2Proof.Machine.execS1 s
  | .k1 => Sys2Proof.Machine.execK1 s
  | .k2 => Sys2Proof.Machine.execK2 s
  | .k3 => Sys2Proof.Machine.execK3 s
  | .k4 => Sys2Proof.Machine.execK4 s
  | .id128 => Sys2Proof.Machine.execId128 s
  | .ccmEnc micsz => Sys2Proof.Machine.execCcmEnc micsz s
  | .ccmDec micsz => Sys2Proof.Machine.execCcmDec micsz s
  | .nonceNet => Sys2Proof.Machine.execNonceNet s
  | .nonceProxy => Sys2Proof.Machine.execNonceProxy s
  | .nonceApp aszmic => Sys2Proof.Machine.execNonceApp aszmic s
  | .nonceDev aszmic => Sys2Proof.Machine.execNonceDev aszmic s

end Sys2Proof.Machine
end

