-- ==== Sys2Proof/Machine/Turn.lean ====
section
/-! DEFINITION. Whose turn it is (20_memory.md R75) and what it does: the engine decodes the word of the pending command
and completes it (60_exceptions.md R242), the host makes an access, the platform resets. -/

namespace Sys2Proof.Machine

/-- The pending command word as the 32-bit value the decoder takes; GO is no part of it (30_encoding.md R103). -/
def Snapshot.cmdWord (p : Snapshot) : Word := p.cmd.setWidth 32

/-- The detail code of a word that is no command (60_exceptions.md R244). -/
def decodeDetail : DecodeError → ErrDetail
  | .badOpcode => .badOpcode
  | .rsvdBits => .rsvdBits

/-- The engine's turn: complete the pending command; a word that is no command completes with InvalidParameters
(30_encoding.md R96, R97, R99). An idle engine has nothing to do (70_reset_and_hazards.md R270; log 2). -/
def engineTurn (s : State) : Host.Outcome State Fault Refusal :=
  match s.pending with
  | none => .next s
  | some p =>
    match decode p.cmdWord with
    | .ok i => exec i s
    | .error e => .next (s.raiseInvalid (decodeDetail e))

/-- The next turn of the total order; when the host has none left, the engine's (70_reset_and_hazards.md R276; logs 1, 2). -/
def takeTurn (s : State) : Host.Outcome State Fault Refusal :=
  match s.schedule with
  | [] => engineTurn s
  | .engine :: rest => engineTurn { s with schedule := rest }
  | .host a :: rest => hostAccess { s with schedule := rest } a
  | .resetInput :: rest => .next ({ s with schedule := rest }.assertReset)

/-- The schedule that gives the engine the next turn and changes nothing else. -/
def engineNext : List Turn → List Turn
  | [] => []
  | t :: rest => .engine :: t :: rest

end Sys2Proof.Machine
end

