-- ==== Sys2Proof/Machine/Step.lean ====
section
/-! DEFINITION. One step of the machine, and a command placed where the next step runs it (log 1). -/

namespace Sys2Proof.Machine

/-- One step: one turn of the total order of 20_memory.md R75. -/
def step (s : State) : Host.Outcome State Fault Refusal := takeTurn s

/-- `s` with the command word `w` pending, as an accepted start leaves it (60_exceptions.md R241), and the engine's turn
next. -/
def State.withFetchWord (s : State) (nbits w : Nat) : State :=
  { s.startCommand (BitVec.ofNat 31 (w % 2 ^ nbits)) with schedule := engineNext s.schedule }

end Sys2Proof.Machine
end

