-- ==== Sys2Proof/Machine/Assembly.lean ====
section
/-! DEFINITION. The host assembly notation (30_encoding.md R105): each statement is the listed sequence of bus accesses
and nothing else, and a program is what the host issues, its `wait` loops driven by the STATUS words it reads. -/

namespace Sys2Proof.Machine

/-! ### Statements -/

/-- The mnemonics of 30_encoding.md R98. -/
inductive Mnemonic where
  | aesEcb | cmac | s1 | k1 | k2 | k3 | k4 | id128 | ccmEnc | ccmDec | nonceNet | nonceProxy | nonceApp | nonceDev
deriving DecidableEq, Repr

/-- OPCODE(MNEMONIC) (30_encoding.md R98). -/
def Mnemonic.opcode : Mnemonic → Nat
  | .aesEcb => 0x01
  | .cmac => 0x02
  | .s1 => 0x03
  | .k1 => 0x04
  | .k2 => 0x05
  | .k3 => 0x06
  | .k4 => 0x07
  | .id128 => 0x08
  | .ccmEnc => 0x09
  | .ccmDec => 0x0A
  | .nonceNet => 0x0B
  | .nonceProxy => 0x0C
  | .nonceApp => 0x0D
  | .nonceDev => 0x0E

/-- The mnemonic of a command (30_encoding.md R98). -/
def mnemonicOf : Instr → Mnemonic
  | .aesEcb => .aesEcb
  | .cmac _ => .cmac
  | .s1 => .s1
  | .k1 => .k1
  | .k2 => .k2
  | .k3 => .k3
  | .k4 => .k4
  | .id128 => .id128
  | .ccmEnc _ => .ccmEnc
  | .ccmDec _ => .ccmDec
  | .nonceNet => .nonceNet
  | .nonceProxy => .nonceProxy
  | .nonceApp _ => .nonceApp
  | .nonceDev _ => .nonceDev

/-- A statement of R105. -/
inductive AsmStmt where
  /-- `wr REG, v` -/
  | wr (r : Reg) (v : Word)
  /-- `wb k, hh hh ...` -/
  | wb (k : Nat) (bs : Bytes)
  /-- `go MNEMONIC mic=m aszmic=a n=s`: any mnemonic takes any fields, used by its command or not; an omitted field is 0 -/
  | go (mn : Mnemonic) (mic aszmic n : Nat)
  /-- `wait` -/
  | wait
  /-- `ack` -/
  | ack
  /-- `rb k, n` -/
  | rb (k n : Nat)
  /-- `expect STATUS[7:4] == e` -/
  | expect (e : Nat)
deriving DecidableEq, Repr

/-- The word `go` writes: `0x80000000 | s<<17 | a<<16 | m<<8 | OPCODE(MNEMONIC)` (R105). -/
def goWord (mn : Mnemonic) (mic aszmic n : Nat) : Word :=
  BitVec.ofNat 32 (0x80000000 ||| n <<< 17 ||| aszmic <<< 16 ||| mic <<< 8 ||| mn.opcode)

/-- The `go` statement of a command, its own fields written and the others omitted. -/
def AsmStmt.goCommand (i : Instr) : AsmStmt := .go (mnemonicOf i) (micszOf i) (aszmicOf i) (segcntOf i)

/-! ### What the host does for a statement -/

/-- A 32-bit write of a register. -/
def regWrite (r : Reg) (v : Word) : Access := .write (Config.engineBase + r.offset) 32 v

/-- A 32-bit read of a register. -/
def regRead (r : Reg) : Access := .read (Config.engineBase + r.offset) 32

/-- An 8-bit write of BUF[k]. -/
def bufByteWrite (k : Nat) (v : Byte) : Access := .write (Config.engineBase + Config.bufBase + k) 8 (v.setWidth 32)

/-- An 8-bit read of BUF[k]. -/
def bufByteRead (k : Nat) : Access := .read (Config.engineBase + Config.bufBase + k) 8

/-- One thing the host has still to do. -/
inductive HostAct where
  /-- one bus access -/
  | access (a : Access)
  /-- the loop of `wait`: read STATUS, again and again until its bit 0 is 0 -/
  | poll
  /-- the read of `expect` and its comparison of ERRCODE with `e` -/
  | check (e : Nat)
deriving DecidableEq, Repr

/-- The bus access the host makes for it. -/
def HostAct.bus : HostAct → Access
  | .access a => a
  | .poll => regRead .status
  | .check _ => regRead .status

/-- The loop `wait` ends at a STATUS word with bit 0 = 0. -/
def waitDone (status : Word) : Bool := !status.getLsbD 0

/-- The comparison of `expect`: STATUS[7:4] == e. -/
def expectMet (e : Nat) (status : Word) : Bool := bits status 7 4 == e

/-- What is left to do once the engine has answered `answer`: a `poll` that saw BUSY = 1 comes again, and a program whose
`expect` failed has ended (log 19). -/
def HostAct.andThen (act : HostAct) (answer : Option Word) (rest : List HostAct) : List HostAct :=
  match act, answer with
  | .access _, _ => rest
  | .poll, some status => if waitDone status then rest else .poll :: rest
  | .poll, none => .poll :: rest
  | .check e, some status => if expectMet e status then rest else []
  | .check _, none => []

/-- The expansion of a statement (R105). -/
def AsmStmt.acts : AsmStmt → List HostAct
  | .wr r v => [.access (regWrite r v)]
  | .wb k bs => bs.zipIdx.map fun c => .access (bufByteWrite (k + c.2) c.1)
  | .go mn mic aszmic n => [.access (regWrite .cmd (goWord mn mic aszmic n))]
  | .wait => [.poll]
  | .ack => [.access (regWrite .status 0x00000006#32)]
  | .rb k n => (List.range n).map fun i => .access (bufByteRead (k + i))
  | .expect e => [.check e]

/-- The expansion of a program. -/
def programActs (prog : List AsmStmt) : List HostAct := prog.flatMap AsmStmt.acts

/-! ### The turns of a program -/

/-- Who comes next while a program runs: its next bus access, the engine's completion, or a reset (20_memory.md R75). -/
inductive Who where
  | program
  | engine
  | resetInput
deriving DecidableEq, Repr

/-- The turns that happen when a host has `acts` to do, from the state `s`, in the order `order`: the accesses are the
program's, in program order, and how many of them come before a completion is the order's to say
(70_reset_and_hazards.md R276; log 19). They end where the order does, or at an access that gives no next state. -/
def programTurns : List Who → List HostAct → State → List Turn
  | [], _, _ => []
  | .engine :: order, acts, s =>
    .engine :: match engineTurn s with
      | .next t => programTurns order acts t
      | .fault _ => []
      | .refused _ => []
  | .resetInput :: order, acts, s => .resetInput :: programTurns order acts s.assertReset
  | .program :: order, [], s => programTurns order [] s
  | .program :: order, act :: rest, s =>
    .host act.bus :: match hostAccess s act.bus with
      | .next t => programTurns order (act.andThen t.readData rest) t
      | .fault _ => []
      | .refused _ => []

end Sys2Proof.Machine
end

