-- ==== Sys2Proof/Safety.lean ====
section
/-! DEFINITION. The terms in which the claims are made: what a completion may change, the operand and region table of
30_encoding.md R98, the check order of 60_exceptions.md R245 as one function of the command word, and the invariant of the
machine. The table and the check order are written from their rules a second time, apart from the meanings. -/

namespace Sys2Proof.Safety

open Sys2Proof.Machine

/-! ### Regions in statements -/

/-- `in_range(off, n)` as 20_memory.md R72 writes it. -/
abbrev Fits (cfg : Config) (off n : Nat) : Prop := n = 0 ∨ off + n ≤ cfg.bufSize

/-- Two regions share no byte. -/
abbrev Apart (o₁ n₁ o₂ n₂ : Nat) : Prop := o₁ + n₁ ≤ o₂ ∨ o₂ + n₂ ≤ o₁

/-! ### Completions -/

/-- Everything that is not STATUS or BUF stays (10_state.md R43, 20_memory.md R74): CMD, the operand registers, IRQ_EN,
BUSYERR (10_state.md R29), the parameters, and the model's own schedule and last answer. -/
structure CompletionFrame (s t : State) : Prop where
  cfg : t.cfg = s.cfg
  cmd : t.cmd = s.cmd
  regs : t.regs = s.regs
  doneIe : t.doneIe = s.doneIe
  busyErrIe : t.busyErrIe = s.busyErrIe
  busyErr : t.busyErr = s.busyErr
  schedule : t.schedule = s.schedule
  readData : t.readData = s.readData

/-- `t` is `s` with its command completed without an error, the bytes `bs` written at BUF offset `off` and every other
byte of BUF as it was (60_exceptions.md R242, R243). -/
structure CompletesOk (s t : State) (off : Nat) (bs : Bytes) : Prop where
  frame : CompletionFrame s t
  idle : t.pending = none
  done : t.done = true
  errCode : t.errCode = .ok
  errDetail : t.errDetail = .noDetail
  draws : t.draws = s.draws
  output : t.buf.read off bs.length = bs
  elsewhere : ∀ k, k < off ∨ off + bs.length ≤ k → t.buf.get k = s.buf.get k

/-- `t` is `s` with its command completed with InvalidParameters and the detail `d`; no BUF byte changes (60_exceptions.md
R246). -/
structure CompletesInvalid (s t : State) (d : ErrDetail) : Prop where
  frame : CompletionFrame s t
  idle : t.pending = none
  done : t.done = true
  errCode : t.errCode = .invalidParameters
  errDetail : t.errDetail = d
  draws : t.draws = s.draws
  buf : t.buf = s.buf

/-- `t` is `s` with its command completed with AuthenticationFailed; nothing is said of the `n` bytes at `off`, and every
other byte of BUF is as it was (60_exceptions.md R248). -/
structure CompletesUnauthentic (s t : State) (off n : Nat) : Prop where
  frame : CompletionFrame s t
  idle : t.pending = none
  done : t.done = true
  errCode : t.errCode = .authenticationFailed
  errDetail : t.errDetail = .noDetail
  elsewhere : ∀ k, k < off ∨ off + n ≤ k → t.buf.get k = s.buf.get k

/-! ### The table of 30_encoding.md R98 -/

/-- SEGn_OFF and SEGn_LEN for n < `n` (R98, row CMAC). -/
def segOperands (n : Nat) : List OpReg :=
  ([[.seg0Off, .seg0Len], [.seg1Off, .seg1Len], [.seg2Off, .seg2Len], [.seg3Off, .seg3Len]].take n).flatten

/-- The operand registers CCM reads (R98, rows CCM_ENC and CCM_DEC). -/
def ccmOperands : List OpReg := [.keyOff, .nonceOff, .aadOff, .aadLen, .msgOff, .msgLen, .outOff]

/-- The column "operands" of R98. -/
def operandsRead : Instr → List OpReg
  | .aesEcb => [.keyOff, .msgOff, .outOff]
  | .cmac n => .keyOff :: segOperands n ++ [.outOff]
  | .s1 => [.seg0Off, .seg0Len, .outOff]
  | .k1 => [.keyOff, .seg0Off, .seg0Len, .seg1Off, .seg1Len, .outOff]
  | .k2 => [.keyOff, .seg0Off, .seg0Len, .outOff]
  | .k3 => [.keyOff, .outOff]
  | .k4 => [.keyOff, .outOff]
  | .id128 => [.keyOff, .seg0Off, .seg0Len, .outOff]
  | .ccmEnc _ => ccmOperands
  | .ccmDec _ => ccmOperands
  | .nonceNet => [.msgOff, .ivIndex, .outOff]
  | .nonceProxy => [.msgOff, .ivIndex, .outOff]
  | .nonceApp _ => [.seq, .addr, .ivIndex, .outOff]
  | .nonceDev _ => [.seq, .addr, .ivIndex, .outOff]

/-- The region named by an offset register and a length. -/
def regionAt (g : OperandRegs) (off : OpReg) (len : Nat) : Region := ⟨(g.read off).toNat, len⟩

/-- The region named by an offset register and a length register. -/
def regionBy (g : OperandRegs) (off len : OpReg) : Region := ⟨(g.read off).toNat, (g.read len).toNat⟩

/-- The regions CCM reads, with `n` message bytes (R98). -/
def ccmReads (g : OperandRegs) (n : Nat) : List Region :=
  [regionAt g .keyOff 16, regionAt g .nonceOff 13, regionBy g .aadOff .aadLen, regionAt g .msgOff n]

/-- The column "reads" of R98. -/
def regionsRead (g : OperandRegs) : Instr → List Region
  | .aesEcb => [regionAt g .keyOff 16, regionAt g .msgOff 16]
  | .cmac n => regionAt g .keyOff 16 ::
      [regionBy g .seg0Off .seg0Len, regionBy g .seg1Off .seg1Len, regionBy g .seg2Off .seg2Len,
        regionBy g .seg3Off .seg3Len].take n
  | .s1 => [regionBy g .seg0Off .seg0Len]
  | .k1 => [regionAt g .keyOff 16, regionBy g .seg0Off .seg0Len, regionBy g .seg1Off .seg1Len]
  | .k2 => [regionAt g .keyOff 16, regionBy g .seg0Off .seg0Len]
  | .k3 => [regionAt g .keyOff 16]
  | .k4 => [regionAt g .keyOff 16]
  | .id128 => [regionAt g .keyOff 16, regionBy g .seg0Off .seg0Len]
  | .ccmEnc _ => ccmReads g (g.read .msgLen).toNat
  | .ccmDec m => ccmReads g ((g.read .msgLen).toNat + m)
  | .nonceNet => [regionAt g .msgOff 7]
  | .nonceProxy => [regionAt g .msgOff 7]
  | .nonceApp _ => []
  | .nonceDev _ => []

/-- The length in the column "writes" of R98. -/
def outputLength (g : OperandRegs) : Instr → Nat
  | .aesEcb => 16
  | .cmac _ => 16
  | .s1 => 16
  | .k1 => 16
  | .k2 => 33
  | .k3 => 8
  | .k4 => 1
  | .id128 => 16
  | .ccmEnc m => (g.read .msgLen).toNat + m
  | .ccmDec _ => (g.read .msgLen).toNat
  | .nonceNet => 13
  | .nonceProxy => 13
  | .nonceApp _ => 13
  | .nonceDev _ => 13

/-- The column "writes" of R98: every command has one output region, at OUT_OFF. -/
def regionWritten (g : OperandRegs) (i : Instr) : Region := regionAt g .outOff (outputLength g i)

/-! ### The check order of 60_exceptions.md R245 -/

/-- The bits of CMD[30:8] that the opcode does not use, summed by field: 0 exactly when none of them is set (30_encoding.md
R96, R97, R103). -/
def strayBits (w : Word) (op : Nat) : Nat :=
  if op = 0x02 then bits w 16 8 + bits w 30 20
  else if op = 0x09 ∨ op = 0x0A then bits w 30 13
  else if op = 0x0D ∨ op = 0x0E then bits w 15 8 + bits w 30 17
  else bits w 30 8

/-- The command an opcode and its fields name (30_encoding.md R98, R102). -/
def commandOf (w : Word) : Option Instr :=
  [(0x01, Instr.aesEcb), (0x02, .cmac (bits w 19 17)), (0x03, .s1), (0x04, .k1), (0x05, .k2), (0x06, .k3), (0x07, .k4),
   (0x08, .id128), (0x09, .ccmEnc (bits w 12 8)), (0x0A, .ccmDec (bits w 12 8)), (0x0B, .nonceNet), (0x0C, .nonceProxy),
   (0x0D, .nonceApp (bits w 16 16 == 1)), (0x0E, .nonceDev (bits w 16 16 == 1))].lookup (bits w 7 0)

/-- The procedure `check` of R245 on a snapshot: the detail of the first check that fails. -/
def firstFailure (cfg : Config) (p : Snapshot) : Option ErrDetail :=
  let w : Word := p.cmd.setWidth 32
  let op := bits w 7 0
  match commandOf w with
  | none => some .badOpcode
  | some i =>
    if strayBits w op ≠ 0 then some .rsvdBits
    else if (op = 0x09 ∨ op = 0x0A) ∧ 16 < bits w 12 8 then some .micTooLarge
    else if (op = 0x09 ∨ op = 0x0A) ∧ bits w 12 8 ≠ 4 ∧ bits w 12 8 ≠ 8 then some .micUnsupported
    else if (op = 0x09 ∨ op = 0x0A) ∧ 0xFF00 ≤ p.regs.aadLen.toNat then some .aadTooLong
    else if op = 0x02 ∧ 4 < bits w 19 17 then some .segcnt
    else if (regionWritten p.regs i :: regionsRead p.regs i).all (inRange cfg) then none
    else some .range

/-! ### The S-box by its formula (41_block_cipher.md R122) -/

/-- The affine map A of R122. -/
def affine (b : Byte) : Byte :=
  b ^^^ b.rotateLeft 1 ^^^ b.rotateLeft 2 ^^^ b.rotateLeft 3 ^^^ b.rotateLeft 4 ^^^ 0x63#8

/-! ### Turns that reach the engine -/

/-- A turn the engine gives a meaning: an access of a supported width and alignment at an address of the window, a reset,
or the engine's own (20_memory.md R62 to R64). -/
def TurnSupported : Turn → Prop
  | .host (.read addr bits) => ∃ off, windowOffset addr = some off ∧ supportedAccess off bits = true
  | .host (.write addr bits _) => ∃ off, windowOffset addr = some off ∧ supportedAccess off bits = true
  | .resetInput => True
  | .engine => True

/-! ### The invariant -/

/-- What holds of every state the machine reaches from reset: the parameters are legal, BUF is in canonical form, the free
draws to come are fresh, CryptoEngineFailure is never reported (60_exceptions.md R247), ERRDETAIL is set exactly for
InvalidParameters (R244), and while a command is pending its snapshot equals the live state (20_memory.md R70) and DONE
and ERRCODE are 0 (10_state.md R28, R30). -/
structure Inv (s : State) : Prop where
  legal : s.cfg.Legal
  bufWf : s.buf.wf s.cfg.bufSize = true
  freshDraw : s.buf.draw < s.draws
  noEngineFailure : s.errCode ≠ .cryptoEngineFailure
  detailIff : s.errDetail ≠ .noDetail ↔ s.errCode = .invalidParameters
  snapshotLive : ∀ p, s.pending = some p → p = s.capture
  busyQuiet : ∀ p, s.pending = some p → s.done = false ∧ s.errCode = .ok

end Sys2Proof.Safety
end

