-- ==== Sys2Proof/Certificates/Slice0/Obligations.lean ====
section
/-! DEFINITION. The statements, each from the numbered rules its docstring names. `p` is always the snapshot of the pending
command (20_memory.md R70). -/

open Sys2Proof Sys2Proof.Machine Sys2Proof.Safety

/-! ### The command word -/

/-- 30_encoding.md R90, R98, R103: decoding the word that starts a command gives that command, whatever its fields hold. -/
def Obligations.DecodeOfEncodeIsIdentity : Prop :=
  ∀ i : Instr, i.wf = true → decode (encode i) = .ok i

/-- 30_encoding.md R97, R98, R103: a word that decodes is, with GO set, the word that starts the command it decodes to, so
the decoder drops no bit. -/
def Obligations.EncodeOfDecodeRestoresTheWord : Prop :=
  ∀ (w : Word) (i : Instr), decode w = .ok i → encode i = w ||| 0x80000000#32

/-- 30_encoding.md R92, R94: a decoded MICSZ is below 32 and a decoded SEGCNT below 8. -/
def Obligations.DecodedCommandIsWellFormed : Prop :=
  ∀ (w : Word) (i : Instr), decode w = .ok i → i.wf = true

/-- 30_encoding.md R97 and the opcode table: the words that decode to each command are exactly those with
`w AND mask == match`. -/
def Obligations.DecoderMatchesTheOpcodeTable : Prop :=
  ∀ w : Word,
    (decode w = .ok .aesEcb ↔ w &&& 0x7FFFFFFF#32 = 0x00000001#32) ∧
    ((∃ n, decode w = .ok (.cmac n)) ↔ w &&& 0x7FF1FFFF#32 = 0x00000002#32) ∧
    (decode w = .ok .s1 ↔ w &&& 0x7FFFFFFF#32 = 0x00000003#32) ∧
    (decode w = .ok .k1 ↔ w &&& 0x7FFFFFFF#32 = 0x00000004#32) ∧
    (decode w = .ok .k2 ↔ w &&& 0x7FFFFFFF#32 = 0x00000005#32) ∧
    (decode w = .ok .k3 ↔ w &&& 0x7FFFFFFF#32 = 0x00000006#32) ∧
    (decode w = .ok .k4 ↔ w &&& 0x7FFFFFFF#32 = 0x00000007#32) ∧
    (decode w = .ok .id128 ↔ w &&& 0x7FFFFFFF#32 = 0x00000008#32) ∧
    ((∃ m, decode w = .ok (.ccmEnc m)) ↔ w &&& 0x7FFFE0FF#32 = 0x00000009#32) ∧
    ((∃ m, decode w = .ok (.ccmDec m)) ↔ w &&& 0x7FFFE0FF#32 = 0x0000000A#32) ∧
    (decode w = .ok .nonceNet ↔ w &&& 0x7FFFFFFF#32 = 0x0000000B#32) ∧
    (decode w = .ok .nonceProxy ↔ w &&& 0x7FFFFFFF#32 = 0x0000000C#32) ∧
    ((∃ a, decode w = .ok (.nonceApp a)) ↔ w &&& 0x7FFEFFFF#32 = 0x0000000D#32) ∧
    ((∃ a, decode w = .ok (.nonceDev a)) ↔ w &&& 0x7FFEFFFF#32 = 0x0000000E#32)

/-- 30_encoding.md R104: the encoding examples, and the illegal word among them. -/
def Obligations.SampleCommandWordsDecode : Prop :=
  decode 0x80000001#32 = .ok .aesEcb ∧
  decode 0x80060002#32 = .ok (.cmac 3) ∧
  decode 0x80000409#32 = .ok (.ccmEnc 4) ∧
  decode 0x80000809#32 = .ok (.ccmEnc 8) ∧
  decode 0x8000080A#32 = .ok (.ccmDec 8) ∧
  decode 0x8001000D#32 = .ok (.nonceApp true) ∧
  decode 0x80000005#32 = .ok .k2 ∧
  decode 0x80001101#32 = .error .rsvdBits

/-- 30_encoding.md R99: a reserved opcode completes with BAD_OPCODE and changes no BUF byte. -/
def Obligations.ReservedOpcodeCompletesWithBadOpcode : Prop :=
  ∀ (s : State) (p : Snapshot), s.pending = some p →
    (bits (p.cmd.setWidth 32) 7 0 = 0x00 ∨ 0x0F ≤ bits (p.cmd.setWidth 32) 7 0) →
    ∃ t, engineTurn s = .next t ∧ CompletesInvalid s t .badOpcode

/-- 30_encoding.md R96, R97 (after the opcode check, 60_exceptions.md R245): a reserved bit, or a field the command does not
use, completes with RSVD_BITS. -/
def Obligations.StrayBitsCompleteWithRsvdBits : Prop :=
  ∀ (s : State) (p : Snapshot), s.pending = some p →
    let w : Word := p.cmd.setWidth 32
    let op := bits w 7 0
    0x01 ≤ op → op ≤ 0x0E →
    (bits w 15 13 ≠ 0 ∨ bits w 30 20 ≠ 0 ∨ (bits w 12 8 ≠ 0 ∧ op ≠ 0x09 ∧ op ≠ 0x0A) ∨
      (bits w 16 16 ≠ 0 ∧ op ≠ 0x0D ∧ op ≠ 0x0E) ∨ (bits w 19 17 ≠ 0 ∧ op ≠ 0x02)) →
    ∃ t, engineTurn s = .next t ∧ CompletesInvalid s t .rsvdBits

/-! ### Steps -/

/-- When the engine has the turn the step is `engineTurn`, in every state and whatever word is pending: its turn listed
first, or, the model's choice (logs 1, 2), no turn listed. Nothing is added but taking the turn off the schedule. Where the
pending word decodes, that step is the command's execution (60_exceptions.md R242). -/
def Obligations.StepRunsTheDecodedCommand : Prop :=
  ∀ s : State,
    (s.schedule = [] → step s = engineTurn s) ∧
    (∀ rest, s.schedule = .engine :: rest → step s = engineTurn { s with schedule := rest }) ∧
    (∀ (p : Snapshot) (i : Instr), s.pending = some p → decode p.cmdWord = .ok i →
      (s.schedule = [] → step s = exec i s) ∧
      (∀ rest, s.schedule = .engine :: rest → step s = exec i { s with schedule := rest }))

/-- The model's choice (logs 1, 2), after 20_memory.md R75 and 70_reset_and_hazards.md R270: the schedule says whose turn it
is, and an idle engine's turn changes nothing. -/
def Obligations.StepTakesTheNextTurn : Prop :=
  ∀ s : State,
    (∀ a rest, s.schedule = .host a :: rest → step s = hostAccess { s with schedule := rest } a) ∧
    (∀ rest, s.schedule = .resetInput :: rest → step s = .next ({ s with schedule := rest }.assertReset)) ∧
    (∀ rest, s.pending = none → s.schedule = .engine :: rest → step s = .next { s with schedule := rest }) ∧
    (s.pending = none → s.schedule = [] → step s = .next s)

/-- 30_encoding.md R90, R105: the word of a `go` statement holds its mnemonic's opcode and its three fields, used by that
command or not, GO = 1 and 0 in the reserved bits; with the fields of a command it is the word that encodes the command. -/
def Obligations.GoWordHoldsItsFields : Prop :=
  (∀ (mn : Mnemonic) (mic aszmic n : Nat), mic < 32 → aszmic < 2 → n < 8 →
    let w := goWord mn mic aszmic n
    bits w 7 0 = mn.opcode ∧ bits w 12 8 = mic ∧ bits w 15 13 = 0 ∧ bits w 16 16 = aszmic ∧ bits w 19 17 = n ∧
      bits w 30 20 = 0 ∧ bits w 31 31 = 1) ∧
  (∀ i : Instr, i.wf = true → goWord (mnemonicOf i) (micszOf i) (aszmicOf i) (segcntOf i) = encode i)

/-- 30_encoding.md R105, 60_exceptions.md R241: the statement `go` of an idle engine's host, with any mnemonic and any fields,
leaves its word's low 31 bits pending, with the registers and BUF as they stand, whatever ENGINE_BASE is; the `go` of a
command leaves that command pending. -/
def Obligations.GoStatementStartsItsCommand : Prop :=
  ∀ (mn : Mnemonic) (mic aszmic n : Nat) (s : State) (rest : List Turn), s.busy = false →
    s.schedule = ((AsmStmt.go mn mic aszmic n).acts.map fun a => .host a.bus) ++ rest →
    ∃ t p, step s = .next t ∧ t.pending = some p ∧ p.cmd = (goWord mn mic aszmic n).setWidth 31 ∧ p.regs = s.regs ∧
      p.buf = s.buf ∧ t.schedule = rest ∧
      (∀ i : Instr, i.wf = true → AsmStmt.go mn mic aszmic n = AsmStmt.goCommand i → decode p.cmdWord = .ok i)

/-- 30_encoding.md R105: `wait` reads STATUS and comes again exactly while it reads BUSY = 1, so once on an idle engine;
`expect` reads STATUS and the program goes on exactly when STATUS[7:4] is `e` (that it ends otherwise is the model's choice,
log 19). The read is the step the listed turn takes. -/
def Obligations.WaitAndExpectFollowTheStatusTheyRead : Prop :=
  ∀ (s : State) (order : List Who) (rest : List HostAct) (e : Nat) (turns : List Turn),
    let t : State := { s with readData := some s.statusWord }
    programTurns (.program :: order) (AsmStmt.wait.acts ++ rest) s =
      .host (regRead .status) :: programTurns order (if s.busy then AsmStmt.wait.acts ++ rest else rest) t ∧
    programTurns (.program :: order) ((AsmStmt.expect e).acts ++ rest) s =
      .host (regRead .status) :: programTurns order (if bits s.statusWord 7 4 = e then rest else []) t ∧
    step { s with schedule := .host (regRead .status) :: turns } = .next { t with schedule := turns }

/-! ### Host accesses -/

/-- 30_encoding.md R95, 60_exceptions.md R241: a write of CMD while idle stores bits [30:0] and starts the command when GO is
1; with GO = 0 it only stores; while busy it is no start; GO reads 0. -/
def Obligations.CmdWriteStartsOrStores : Prop :=
  ∀ (s : State) (v : Word),
    (s.busy = false → v.getLsbD 31 = true →
      busWrite s 0x004 32 v = .next { s with
        cmd := v.setWidth 31, pending := some ⟨v.setWidth 31, s.regs, s.buf⟩
        done := false, errCode := .ok, errDetail := .noDetail }) ∧
    (s.busy = false → v.getLsbD 31 = false → busWrite s 0x004 32 v = .next { s with cmd := v.setWidth 31 }) ∧
    (s.busy = true → busWrite s 0x004 32 v = .next { s with busyErr := true }) ∧
    (∃ r : Word, busRead s 0x004 32 = .next { s with readData := some r } ∧ r.setWidth 31 = s.cmd ∧ r.getLsbD 31 = false)

/-- 20_memory.md R68: while busy a supported write other than to STATUS changes nothing but BUSYERR, which it sets; a write
to STATUS performs its W1C action and does not set BUSYERR. -/
def Obligations.WriteWhileBusyIsLost : Prop :=
  ∀ (s : State) (off width : Nat) (v : Word), s.busy = true → supportedAccess off width = true →
    (off ≠ 0x008 → busWrite s off width v = .next { s with busyErr := true }) ∧
    (off = 0x008 → busWrite s off width v =
      .next { s with done := s.done && !v.getLsbD 1, busyErr := s.busyErr && !v.getLsbD 2 })

/-- 10_state.md R32: a write of STATUS, idle or busy, clears DONE where bit 1 is 1 and BUSYERR where bit 2 is 1, and nothing
else. -/
def Obligations.StatusWriteClearsOnlyDoneAndBusyErr : Prop :=
  ∀ (s : State) (v : Word),
    busWrite s 0x008 32 v = .next { s with done := s.done && !v.getLsbD 1, busyErr := s.busyErr && !v.getLsbD 2 }

/-- 10_state.md R26 to R31, R33 and 60_exceptions.md R243, R244: what a read of STATUS and of IRQ_EN shows, field by field,
the codes as numbers and every reserved bit 0. -/
def Obligations.StatusAndIrqEnReadTheirFields : Prop :=
  ∀ s : State, ∃ st ie : Word,
    busRead s 0x008 32 = .next { s with readData := some st } ∧
    bits st 0 0 = s.busy.toNat ∧ bits st 1 1 = s.done.toNat ∧ bits st 2 2 = s.busyErr.toNat ∧ bits st 3 3 = 0 ∧
    (bits st 7 4, s.errCode) ∈
      [(0, .ok), (1, .invalidParameters), (2, .authenticationFailed), (3, ErrCode.cryptoEngineFailure)] ∧
    (bits st 15 8, s.errDetail) ∈
      [(0, .noDetail), (1, .badOpcode), (2, .rsvdBits), (3, .micTooLarge), (4, .micUnsupported), (5, .segcnt),
        (6, .aadTooLong), (7, ErrDetail.range)] ∧
    bits st 31 16 = 0 ∧
    busRead s 0x00C 32 = .next { s with readData := some ie } ∧
    bits ie 0 0 = s.doneIe.toNat ∧ bits ie 1 1 = s.busyErrIe.toNat ∧ bits ie 31 2 = 0

/-- 10_state.md R23, R34 to R38: an operand register written while idle reads back its stored bits, the reserved bits 0, and
no other register or byte changes. -/
def Obligations.OperandRegisterReadsBackItsStoredBits : Prop :=
  ∀ (s : State) (r : OpReg) (v : Word), s.busy = false →
    let stored := if r = .ivIndex ∨ r = .seq ∨ r = .addr then v else v &&& 0x0000FFFF#32
    ∃ t, busWrite s r.offset 32 v = .next t ∧ t = { s with regs := t.regs } ∧
      (∀ q, q ≠ r → t.regs.read q = s.regs.read q) ∧
      busRead t r.offset 32 = .next { t with readData := some stored }

/-- 10_state.md R24, R41: ID reads ID_VALUE and ignores writes; a reserved offset, the range past BUF_SIZE included, reads 0
and ignores writes. While busy a write to any of them still sets BUSYERR (20_memory.md R68), and nothing else. That a read past BUF_SIZE gives 0
while busy too is the model's reading (log 11). -/
def Obligations.IdAndReservedOffsetsAreFixed : Prop :=
  ∀ (s : State) (v : Word),
    let ignored : State := if s.busy then { s with busyErr := true } else s
    busRead s 0x000 32 = .next { s with readData := some 0x4D434501#32 } ∧
    busWrite s 0x000 32 v = .next ignored ∧
    (∀ off width, supportedAccess off width = true →
      (off = 0x038 ∨ off = 0x03C ∨ (0x060 ≤ off ∧ off < 0x400) ∨ 0x400 + s.cfg.bufSize ≤ off) →
      (∃ t, busRead s off width = .next t ∧ t.readData = some 0) ∧
      busWrite s off width v = .next ignored)

/-- 20_memory.md R65: an idle access of 1, 2 or 4 bytes at BUF offset k moves BUF[k] in bits [7:0], BUF[k+1] in [15:8] and so
on; a write stores those bytes and no other. That a narrow read answers zero-extended to 32 bits and a narrow write takes the
low bits is the model's reading (log 20). -/
def Obligations.BufAccessIsLittleEndian : Prop :=
  ∀ (s : State) (k : Nat) (v : Word), s.busy = false →
    (k < s.cfg.bufSize →
      busRead s (0x400 + k) 8 = .next { s with readData := some ((s.buf.get k).setWidth 32) } ∧
      ∃ t, busWrite s (0x400 + k) 8 v = .next t ∧ t = { s with buf := t.buf } ∧ t.buf.get k = v.setWidth 8 ∧
        ∀ j, j ≠ k → t.buf.get j = s.buf.get j) ∧
    (k % 2 = 0 → k + 2 ≤ s.cfg.bufSize →
      busRead s (0x400 + k) 16 =
        .next { s with readData := some ((s.buf.get k).setWidth 32 ||| (s.buf.get (k + 1)).setWidth 32 <<< 8) } ∧
      ∃ t, busWrite s (0x400 + k) 16 v = .next t ∧ t = { s with buf := t.buf } ∧ t.buf.get k = v.setWidth 8 ∧
        t.buf.get (k + 1) = (v >>> 8).setWidth 8 ∧ ∀ j, j < k ∨ k + 2 ≤ j → t.buf.get j = s.buf.get j) ∧
    (k % 4 = 0 → k + 4 ≤ s.cfg.bufSize →
      busRead s (0x400 + k) 32 =
        .next { s with readData := some ((s.buf.get k).setWidth 32 ||| (s.buf.get (k + 1)).setWidth 32 <<< 8 |||
          (s.buf.get (k + 2)).setWidth 32 <<< 16 ||| (s.buf.get (k + 3)).setWidth 32 <<< 24) } ∧
      ∃ t, busWrite s (0x400 + k) 32 v = .next t ∧ t = { s with buf := t.buf } ∧ t.buf.get k = v.setWidth 8 ∧
        t.buf.get (k + 1) = (v >>> 8).setWidth 8 ∧ t.buf.get (k + 2) = (v >>> 16).setWidth 8 ∧
        t.buf.get (k + 3) = (v >>> 24).setWidth 8 ∧ ∀ j, j < k ∨ k + 4 ≤ j → t.buf.get j = s.buf.get j)

/-- The model's reading (log 10) of 10_state.md R41 where BUF_SIZE is no multiple of the access: an idle access that covers
bytes on both sides of the end of BUF moves those below it, and the others read 0 and ignore the write. -/
def Obligations.BufAccessAcrossTheEndIsBytewise : Prop :=
  ∀ (s : State) (k n : Nat) (v : Word), s.busy = false → (n = 2 ∨ n = 4) → k % n = 0 → k < s.cfg.bufSize →
    s.cfg.bufSize < k + n →
    (∃ r : Word, busRead s (0x400 + k) (8 * n) = .next { s with readData := some r } ∧
      ∀ j, j < 4 → (r >>> (8 * j)).setWidth 8 = if j < n ∧ k + j < s.cfg.bufSize then s.buf.get (k + j) else 0) ∧
    ∃ t, busWrite s (0x400 + k) (8 * n) v = .next t ∧ t = { s with buf := t.buf } ∧
      ∀ j, t.buf.get j = if k ≤ j ∧ j < s.cfg.bufSize then (v >>> (8 * (j - k))).setWidth 8 else s.buf.get j

/-- 20_memory.md R67, R69: a supported read always answers and changes no field of the engine, busy or not; a register read
returns the register whether or not the engine is busy. Of a BUF read while busy only that is said. -/
def Obligations.HostReadHasNoSideEffect : Prop :=
  ∀ (s : State) (off width : Nat), supportedAccess off width = true →
    (∃ v d, busRead s off width = .next { s with readData := some v, draws := d } ∧ (s.busy = false → d = s.draws)) ∧
    (∀ r, regAt off = some r → busRead s off width = .next { s with readData := some (s.readReg r) })

/-- 20_memory.md R64: an 8- or 16-bit access to a register offset, a misaligned access, or an access of another width has no
meaning. That it is refused while busy too, and sets no BUSYERR, is the model's reading (log 9). -/
def Obligations.UnsupportedAccessIsRefused : Prop :=
  ∀ (s : State) (off width : Nat) (v : Word),
    ((off < 0x400 ∧ (width ≠ 32 ∨ off % 4 ≠ 0)) ∨ (width ≠ 8 ∧ width ≠ 16 ∧ width ≠ 32) ∨
      (width = 16 ∧ off % 2 ≠ 0) ∨ (width = 32 ∧ off % 4 ≠ 0)) →
    busRead s off width = .refused .unsupportedAccess ∧ busWrite s off width v = .refused .unsupportedAccess

/-- The model's choice (log 8), where 20_memory.md R61 leaves the addresses outside the window OPEN: an access there faults,
and one at ENGINE_BASE + off, off below 0x800, is the access at window offset off. -/
def Obligations.WindowBoundsHostAccesses : Prop :=
  ∀ (s : State) (addr width : Nat) (v : Word),
    ((addr < Config.engineBase ∨ Config.engineBase + 0x800 ≤ addr) →
      hostAccess s (.read addr width) = .fault .outsideWindow ∧
      hostAccess s (.write addr width v) = .fault .outsideWindow) ∧
    (∀ off, off < 0x800 → addr = Config.engineBase + off →
      hostAccess s (.read addr width) = busRead s off width ∧
      hostAccess s (.write addr width v) = busWrite s off width v)

/-- 60_exceptions.md R249, R250: `irq` follows its four bits in the step that changes them: at a completion, at a write lost
while busy, at a start, at a write of IRQ_EN (the pending bits stay) and at a write of STATUS. -/
def Obligations.InterruptFollowsItsFourBits : Prop :=
  ∀ (s : State) (v : Word),
    (s.irq = ((s.done && s.doneIe) || (s.busyErr && s.busyErrIe))) ∧
    (∀ t, s.busy = true → engineTurn s = .next t → t.irq = (s.doneIe || (s.busyErr && s.busyErrIe))) ∧
    (∀ off width, s.busy = true → supportedAccess off width = true → off ≠ 0x008 →
      ∃ t, busWrite s off width v = .next t ∧ t.irq = ((s.done && s.doneIe) || s.busyErrIe)) ∧
    (s.busy = false → v.getLsbD 31 = true → ∃ t, busWrite s 0x004 32 v = .next t ∧ t.irq = (s.busyErr && s.busyErrIe)) ∧
    (s.busy = false → ∃ t, busWrite s 0x00C 32 v = .next t ∧
      t = { s with doneIe := v.getLsbD 0, busyErrIe := v.getLsbD 1 } ∧
      t.irq = ((s.done && v.getLsbD 0) || (s.busyErr && v.getLsbD 1))) ∧
    (∃ t, busWrite s 0x008 32 v = .next t ∧
      t.irq = ((s.done && !v.getLsbD 1 && s.doneIe) || (s.busyErr && !v.getLsbD 2 && s.busyErrIe)))

/-! ### Reset -/

/-- 10_state.md R48: the table of reset values. BUF is unspecified: no byte is listed. -/
def Obligations.ResetStateHasTheTableValues : Prop :=
  State.reset.cmd = 0 ∧ State.reset.statusWord = 0 ∧ State.reset.irqEnWord = 0 ∧
  (∀ r, State.reset.regs.read r = 0) ∧ State.reset.readReg .ident = 0x4D434501#32 ∧
  State.reset.pending = none ∧ State.reset.irq = false ∧ State.reset.buf.cells = []

/-- 70_reset_and_hazards.md R270 to R272: the reset input, at any time and in any state, puts every register at its reset
value, drops the pending command and leaves every byte of BUF to a draw not used before. -/
def Obligations.ResetInputRestoresTheResetValues : Prop :=
  ∀ (s : State) (rest : List Turn), s.schedule = .resetInput :: rest →
    ∃ t, step s = .next t ∧ t.cmd = 0 ∧ t.statusWord = 0 ∧ t.irqEnWord = 0 ∧ (∀ r, t.regs.read r = 0) ∧
      t.pending = none ∧ t.irq = false ∧ t.cfg = s.cfg ∧ t.schedule = rest ∧
      (∀ k, t.buf.get k = Config.freeByte s.draws k) ∧ s.draws < t.draws

/-! ### The commands -/

/-- 41_block_cipher.md R130: AES_ECB. -/
def Obligations.AesEcbWritesTheCipherBlock : Prop :=
  ∀ (s : State) (p : Snapshot), s.pending = some p →
    Fits s.cfg p.regs.keyOff.toNat 16 → Fits s.cfg p.regs.msgOff.toNat 16 → Fits s.cfg p.regs.outOff.toNat 16 →
    ∃ t, exec .aesEcb s = .next t ∧
      CompletesOk s t p.regs.outOff.toNat (aes (p.buf.read p.regs.keyOff.toNat 16) (p.buf.read p.regs.msgOff.toNat 16))

/-- 42_cmac.md R145, R146: CMAC over the first SEGCNT segments, concatenated. -/
def Obligations.CmacWritesTheTagOfItsSegments : Prop :=
  ∀ (s : State) (p : Snapshot) (n : Nat), s.pending = some p → n ≤ 4 →
    Fits s.cfg p.regs.keyOff.toNat 16 → Fits s.cfg p.regs.outOff.toNat 16 →
    (∀ g ∈ [p.regs.seg0, p.regs.seg1, p.regs.seg2, p.regs.seg3].take n, Fits s.cfg g.off.toNat g.len.toNat) →
    ∃ t, exec (.cmac n) s = .next t ∧
      CompletesOk s t p.regs.outOff.toNat (cmac (p.buf.read p.regs.keyOff.toNat 16)
        (([p.regs.seg0, p.regs.seg1, p.regs.seg2, p.regs.seg3].take n).flatMap fun g =>
          p.buf.read g.off.toNat g.len.toNat))

/-- 43_kdf.md R162, R169: S1. KEY_OFF is not read. -/
def Obligations.S1WritesTheSaltOfItsLabel : Prop :=
  ∀ (s : State) (p : Snapshot), s.pending = some p →
    Fits s.cfg p.regs.seg0.off.toNat p.regs.seg0.len.toNat → Fits s.cfg p.regs.outOff.toNat 16 →
    ∃ t, exec .s1 s = .next t ∧
      CompletesOk s t p.regs.outOff.toNat
        (cmac (List.replicate 16 0x00#8) (p.buf.read p.regs.seg0.off.toNat p.regs.seg0.len.toNat))

/-- 43_kdf.md R163, R170: K1 of ikm = SEG0, salt at KEY_OFF, info = SEG1. -/
def Obligations.K1WritesTheTwoStageTag : Prop :=
  ∀ (s : State) (p : Snapshot), s.pending = some p →
    Fits s.cfg p.regs.keyOff.toNat 16 → Fits s.cfg p.regs.seg0.off.toNat p.regs.seg0.len.toNat →
    Fits s.cfg p.regs.seg1.off.toNat p.regs.seg1.len.toNat → Fits s.cfg p.regs.outOff.toNat 16 →
    ∃ t, exec .k1 s = .next t ∧
      CompletesOk s t p.regs.outOff.toNat
        (cmac (cmac (p.buf.read p.regs.keyOff.toNat 16) (p.buf.read p.regs.seg0.off.toNat p.regs.seg0.len.toNat))
          (p.buf.read p.regs.seg1.off.toNat p.regs.seg1.len.toNat))

/-- 43_kdf.md R164, R171: K2 writes NID (bit 7 clear), EncryptionKey and PrivacyKey. -/
def Obligations.K2WritesNidAndTwoKeys : Prop :=
  ∀ (s : State) (p : Snapshot), s.pending = some p →
    Fits s.cfg p.regs.keyOff.toNat 16 → Fits s.cfg p.regs.seg0.off.toNat p.regs.seg0.len.toNat →
    Fits s.cfg p.regs.outOff.toNat 33 →
    let par := p.buf.read p.regs.seg0.off.toNat p.regs.seg0.len.toNat
    let t := cmac (s1 [0x73, 0x6d, 0x6b, 0x32]) (p.buf.read p.regs.keyOff.toNat 16)
    let t1 := cmac t (par ++ [0x01])
    let t2 := cmac t (t1 ++ par ++ [0x02])
    let t3 := cmac t (t2 ++ par ++ [0x03])
    (byteAt t1 15 &&& 0x7F).getLsbD 7 = false ∧
    ∃ u, exec .k2 s = .next u ∧ CompletesOk s u p.regs.outOff.toNat ([byteAt t1 15 &&& 0x7F] ++ t2 ++ t3)

/-- 43_kdf.md R165, R172: K3 writes bytes 8 to 15 of its tag. -/
def Obligations.K3WritesTheLastEightBytes : Prop :=
  ∀ (s : State) (p : Snapshot), s.pending = some p →
    Fits s.cfg p.regs.keyOff.toNat 16 → Fits s.cfg p.regs.outOff.toNat 8 →
    ∃ t, exec .k3 s = .next t ∧
      CompletesOk s t p.regs.outOff.toNat
        ((cmac (cmac (s1 [0x73, 0x6d, 0x6b, 0x33]) (p.buf.read p.regs.keyOff.toNat 16))
          [0x69, 0x64, 0x36, 0x34, 0x01]).drop 8)

/-- 43_kdf.md R166, R173: K4 writes byte 15 of its tag with bits 7 and 6 clear. -/
def Obligations.K4WritesTheMaskedLastByte : Prop :=
  ∀ (s : State) (p : Snapshot), s.pending = some p →
    Fits s.cfg p.regs.keyOff.toNat 16 → Fits s.cfg p.regs.outOff.toNat 1 →
    let b := byteAt (cmac (cmac (s1 [0x73, 0x6d, 0x6b, 0x34]) (p.buf.read p.regs.keyOff.toNat 16))
      [0x69, 0x64, 0x36, 0x01]) 15 &&& 0x3F
    b.toNat < 0x40 ∧ ∃ t, exec .k4 s = .next t ∧ CompletesOk s t p.regs.outOff.toNat [b]

/-- 43_kdf.md R167, R174: ID128 of N at KEY_OFF and the label SEG0. -/
def Obligations.Id128WritesTheDerivedKey : Prop :=
  ∀ (s : State) (p : Snapshot), s.pending = some p →
    Fits s.cfg p.regs.keyOff.toNat 16 → Fits s.cfg p.regs.seg0.off.toNat p.regs.seg0.len.toNat →
    Fits s.cfg p.regs.outOff.toNat 16 →
    ∃ t, exec .id128 s = .next t ∧
      CompletesOk s t p.regs.outOff.toNat
        (cmac (cmac (s1 (p.buf.read p.regs.seg0.off.toNat p.regs.seg0.len.toNat)) (p.buf.read p.regs.keyOff.toNat 16))
          [0x69, 0x64, 0x31, 0x32, 0x38, 0x01])

/-- 44_ccm.md R199, R204: CCM_ENC writes the ciphertext and then the MIC. -/
def Obligations.CcmEncWritesCiphertextAndMic : Prop :=
  ∀ (s : State) (p : Snapshot) (m : Nat), s.pending = some p → m = 4 ∨ m = 8 → p.regs.aadLen.toNat < 0xFF00 →
    Fits s.cfg p.regs.keyOff.toNat 16 → Fits s.cfg p.regs.nonceOff.toNat 13 →
    Fits s.cfg p.regs.aadOff.toNat p.regs.aadLen.toNat → Fits s.cfg p.regs.msgOff.toNat p.regs.msgLen.toNat →
    Fits s.cfg p.regs.outOff.toNat (p.regs.msgLen.toNat + m) →
    let key := p.buf.read p.regs.keyOff.toNat 16
    let nonce := p.buf.read p.regs.nonceOff.toNat 13
    let aad := p.buf.read p.regs.aadOff.toNat p.regs.aadLen.toNat
    let msg := p.buf.read p.regs.msgOff.toNat p.regs.msgLen.toNat
    ∃ t, exec (.ccmEnc m) s = .next t ∧
      CompletesOk s t p.regs.outOff.toNat (ccmCtr key nonce msg ++ ccmMic key nonce aad msg m)

/-- 44_ccm.md R201, R205, 60_exceptions.md R248: CCM_DEC writes the plaintext when the MIC over it equals the received one,
and ends with AuthenticationFailed, its output unspecified, when it does not. -/
def Obligations.CcmDecVerifiesAndDecrypts : Prop :=
  ∀ (s : State) (p : Snapshot) (m : Nat), s.pending = some p → m = 4 ∨ m = 8 → p.regs.aadLen.toNat < 0xFF00 →
    Fits s.cfg p.regs.keyOff.toNat 16 → Fits s.cfg p.regs.nonceOff.toNat 13 →
    Fits s.cfg p.regs.aadOff.toNat p.regs.aadLen.toNat → Fits s.cfg p.regs.msgOff.toNat (p.regs.msgLen.toNat + m) →
    Fits s.cfg p.regs.outOff.toNat p.regs.msgLen.toNat →
    let key := p.buf.read p.regs.keyOff.toNat 16
    let nonce := p.buf.read p.regs.nonceOff.toNat 13
    let aad := p.buf.read p.regs.aadOff.toNat p.regs.aadLen.toNat
    let plain := ccmCtr key nonce (p.buf.read p.regs.msgOff.toNat p.regs.msgLen.toNat)
    let mic := p.buf.read (p.regs.msgOff.toNat + p.regs.msgLen.toNat) m
    (ccmMic key nonce aad plain m = mic →
      ∃ t, exec (.ccmDec m) s = .next t ∧ CompletesOk s t p.regs.outOff.toNat plain) ∧
    (ccmMic key nonce aad plain m ≠ mic →
      ∃ t, exec (.ccmDec m) s = .next t ∧ CompletesUnauthentic s t p.regs.outOff.toNat p.regs.msgLen.toNat)

/-- 44_ccm.md R200: the three parameter checks of CCM_ENC and CCM_DEC, in their order, before anything else. -/
def Obligations.CcmChecksItsParametersInOrder : Prop :=
  ∀ (s : State) (p : Snapshot) (m : Nat), s.pending = some p →
    ∃ t u, exec (.ccmEnc m) s = .next t ∧ exec (.ccmDec m) s = .next u ∧
      (16 < m → CompletesInvalid s t .micTooLarge ∧ CompletesInvalid s u .micTooLarge) ∧
      (m ≤ 16 → m ≠ 4 → m ≠ 8 → CompletesInvalid s t .micUnsupported ∧ CompletesInvalid s u .micUnsupported) ∧
      (m = 4 ∨ m = 8 → 0xFF00 ≤ p.regs.aadLen.toNat →
        CompletesInvalid s t .aadTooLong ∧ CompletesInvalid s u .aadTooLong)

/-- 45_nonce.md R220 to R222, R225: NONCE_NET copies H[1..7) and appends the IV index; H[0] is not copied. -/
def Obligations.NonceNetBuildsTheNetworkNonce : Prop :=
  ∀ (s : State) (p : Snapshot), s.pending = some p →
    Fits s.cfg p.regs.msgOff.toNat 7 → Fits s.cfg p.regs.outOff.toNat 13 →
    let h := fun i => p.buf.get (p.regs.msgOff.toNat + i)
    let iv := fun i => (p.regs.ivIndex >>> (8 * (3 - i))).setWidth 8
    ∃ t, exec .nonceNet s = .next t ∧
      CompletesOk s t p.regs.outOff.toNat
        [0x00, h 1, h 2, h 3, h 4, h 5, h 6, 0x00, 0x00, iv 0, iv 1, iv 2, iv 3]

/-- 45_nonce.md R223, R226: NONCE_PROXY in its three configurations. -/
def Obligations.NonceProxyFollowsItsParameters : Prop :=
  ∀ (s : State) (p : Snapshot), s.pending = some p →
    Fits s.cfg p.regs.msgOff.toNat 7 → Fits s.cfg p.regs.outOff.toNat 13 →
    let h := fun i => p.buf.get (p.regs.msgOff.toNat + i)
    let iv := fun i => (p.regs.ivIndex >>> (8 * (3 - i))).setWidth 8
    let tag : Byte := if s.cfg.hasProxyNonce then 0x03 else 0x00
    let byte1 : Byte := if s.cfg.hasProxyNonce && s.cfg.proxyNoncePadByte1 then 0x00 else h 1
    ∃ t, exec .nonceProxy s = .next t ∧
      CompletesOk s t p.regs.outOff.toNat
        [tag, byte1, h 2, h 3, h 4, h 5, h 6, 0x00, 0x00, iv 0, iv 1, iv 2, iv 3]

/-- 45_nonce.md R224, R227, R228: NONCE_APP and NONCE_DEV. SEQ bit 31 never reaches the nonce; ASZMIC takes its place. -/
def Obligations.NonceAppAndDevBuildTheApplicationNonces : Prop :=
  ∀ (s : State) (p : Snapshot) (aszmic : Bool), s.pending = some p → Fits s.cfg p.regs.outOff.toNat 13 →
    let seq0 : Byte := BitVec.ofNat 8 (aszmic.toNat * 128 + p.regs.seq.toNat / 2 ^ 24 % 128)
    let seq := fun i => (p.regs.seq >>> (8 * (3 - i))).setWidth 8
    let addr := fun i => (p.regs.addr >>> (8 * i)).setWidth 8
    let iv := fun i => (p.regs.ivIndex >>> (8 * (3 - i))).setWidth 8
    (∃ t, exec (.nonceApp aszmic) s = .next t ∧
      CompletesOk s t p.regs.outOff.toNat
        [0x01, seq0, seq 1, seq 2, seq 3, addr 1, addr 0, addr 3, addr 2, iv 0, iv 1, iv 2, iv 3]) ∧
    (∃ t, exec (.nonceDev aszmic) s = .next t ∧
      CompletesOk s t p.regs.outOff.toNat
        [0x02, seq0, seq 1, seq 2, seq 3, addr 1, addr 0, addr 3, addr 2, iv 0, iv 1, iv 2, iv 3])

/-! ### All commands -/

/-- 60_exceptions.md R245: the engine's turn reports the first failing check of the procedure `check`, and reports no
InvalidParameters when none fails. -/
def Obligations.EngineReportsTheFirstFailedCheck : Prop :=
  ∀ (s : State) (p : Snapshot), s.pending = some p →
    (∀ d, firstFailure s.cfg p = some d → ∃ t, engineTurn s = .next t ∧ CompletesInvalid s t d) ∧
    (firstFailure s.cfg p = none → ∃ t, engineTurn s = .next t ∧ t.pending = none ∧ t.done = true ∧
      (t.errCode = .ok ∨ (t.errCode = .authenticationFailed ∧ bits p.cmdWord 7 0 = 0x0A)))

/-- 20_memory.md R74, 10_state.md R43: every command, however it ends, changes no byte outside its output region and no
register but STATUS; InvalidParameters changes no byte at all. That `exec` of an idle state, which no step makes, reads the
live registers is the model's choice (log 13). -/
def Obligations.EveryCommandChangesOnlyStatusAndItsOutput : Prop :=
  ∀ (i : Instr) (s : State), ∃ t, exec i s = .next t ∧ CompletionFrame s t ∧ t.pending = none ∧ t.done = true ∧
    (∀ k, (k < (regionWritten s.snapshot.regs i).off ∨
        (regionWritten s.snapshot.regs i).off + (regionWritten s.snapshot.regs i).len ≤ k) →
      t.buf.get k = s.buf.get k) ∧
    (t.errCode = .invalidParameters → t.buf = s.buf)

/-- 60_exceptions.md R243, R244: only CCM_DEC ends with AuthenticationFailed, and ERRDETAIL is set exactly for
InvalidParameters. -/
def Obligations.ErrorCodesBelongToTheirCommands : Prop :=
  ∀ (i : Instr) (s t : State), exec i s = .next t →
    (t.errCode = .authenticationFailed → ∃ m, i = .ccmDec m) ∧
    (t.errDetail ≠ .noDetail ↔ t.errCode = .invalidParameters)

/-- 60_exceptions.md R247: no step produces CryptoEngineFailure. -/
def Obligations.CryptoEngineFailureIsNeverRaised : Prop :=
  ∀ s t : State, s.errCode ≠ .cryptoEngineFailure → step s = .next t → t.errCode ≠ .cryptoEngineFailure

/-- 10_state.md R46, 30_encoding.md R98: a command's result depends only on the operand registers and the bytes of the
regions that its row of R98 lists, and on the parameters. -/
def Obligations.ResultDependsOnlyOnItsOperands : Prop :=
  ∀ (i : Instr) (s t s' t' : State) (p q : Snapshot), s.pending = some p → t.pending = some q → s.cfg = t.cfg →
    (∀ r ∈ operandsRead i, p.regs.read r = q.regs.read r) →
    (∀ g ∈ regionsRead p.regs i, ∀ k, g.off ≤ k → k < g.off + g.len → p.buf.get k = q.buf.get k) →
    exec i s = .next s' → exec i t = .next t' →
    s'.errCode = t'.errCode ∧ s'.errDetail = t'.errDetail ∧
    (s'.errCode = .ok → ∀ k, (regionWritten p.regs i).off ≤ k →
      k < (regionWritten p.regs i).off + (regionWritten p.regs i).len → s'.buf.get k = t'.buf.get k)

/-! ### The life of a command -/

/-- 60_exceptions.md R240, R241, R262: only a host write of CMD with GO = 1 makes an idle engine busy, and only the engine's
own turn or a reset makes a busy one idle. -/
def Obligations.BusyChangesOnlyByStartCompletionOrReset : Prop :=
  ∀ s t : State, step s = .next t →
    (s.busy = false → t.busy = true → ∃ addr v rest, s.schedule = .host (.write addr 32 v) :: rest ∧
      windowOffset addr = some 0x004 ∧ v.getLsbD 31 = true) ∧
    (s.busy = true → t.busy = false → s.schedule = [] ∨ (∃ rest, s.schedule = .engine :: rest) ∨
      ∃ rest, s.schedule = .resetInput :: rest)

/-- 20_memory.md R70, R71, R79: no host access disturbs a pending command: its snapshot, CMD, the operand registers, BUF,
IRQ_EN, ERRCODE and ERRDETAIL stay. -/
def Obligations.HostCannotDisturbAPendingCommand : Prop :=
  ∀ (s t : State) (a : Access), s.busy = true → hostAccess s a = .next t →
    t.pending = s.pending ∧ t.cmd = s.cmd ∧ t.regs = s.regs ∧ t.buf = s.buf ∧ t.doneIe = s.doneIe ∧
    t.busyErrIe = s.busyErrIe ∧ t.errCode = s.errCode ∧ t.errDetail = s.errDetail

/-- 60_exceptions.md R242: a busy engine's turn always completes its command in one step, with DONE = 1 and BUSY = 0,
whatever the command word holds. -/
def Obligations.EngineTurnCompletesThePendingCommand : Prop :=
  ∀ (s : State) (p : Snapshot), s.pending = some p →
    ∃ t, engineTurn s = .next t ∧ CompletionFrame s t ∧ t.pending = none ∧ t.done = true

/-- 70_reset_and_hazards.md R276, with the delay given by the schedule (log 1): after any finite sequence of supported turns
the engine is idle, one turn of its own later. -/
def Obligations.EveryFiniteScheduleEndsIdle : Prop :=
  ∀ s : State, (∀ u ∈ s.schedule, TurnSupported u) →
    ∃ t, Sys2Proof.core.run (s.schedule.length + 1) s = .next t ∧ t.pending = none ∧ t.schedule = []

/-- The invariant of `Inv` at reset. -/
def Obligations.InvariantHoldsAtReset : Prop := Inv State.reset

/-- The invariant of `Inv`: canonical BUF, fresh draws, no CryptoEngineFailure (60_exceptions.md R247), ERRDETAIL exactly for
InvalidParameters (R244), and while busy the snapshot equal to the live state (20_memory.md R70), DONE = 0 and ERRCODE = 0
(10_state.md R28, R30). Every step keeps it. -/
def Obligations.EveryStepKeepsTheInvariant : Prop :=
  ∀ s t : State, Inv s → step s = .next t → Inv t

/-- The model's representation of BUF (log 3): in canonical form, buffers of one draw that list the same bytes at every
address are the same data. -/
def Obligations.BuffersListingTheSameBytesAreEqual : Prop :=
  ∀ (size : Nat) (b c : Buf), b.wf size = true → c.wf size = true → b.draw = c.draw →
    (∀ k, cellAt b.cells k = cellAt c.cells k) → b = c

/-! ### The cryptographic functions -/

/-- 41_block_cipher.md R122: every S-box entry is the affine map of the multiplicative inverse (0 for 0). -/
def Obligations.SboxIsTheAffineMapOfTheInverse : Prop :=
  ∀ x : Byte, ∃ y : Byte, (if x = 0 then y = 0 else gmul x y = 1) ∧ sbox x = affine y

/-- 41_block_cipher.md R128 and 42_cmac.md R142, R144: the examples given there. -/
def Obligations.KnownAnswersOfAesAndCmac : Prop :=
  aes [0x00, 0x01, 0x02, 0x03, 0x04, 0x05, 0x06, 0x07, 0x08, 0x09, 0x0a, 0x0b, 0x0c, 0x0d, 0x0e, 0x0f]
    [0x00, 0x11, 0x22, 0x33, 0x44, 0x55, 0x66, 0x77, 0x88, 0x99, 0xaa, 0xbb, 0xcc, 0xdd, 0xee, 0xff] =
    [0x69, 0xc4, 0xe0, 0xd8, 0x6a, 0x7b, 0x04, 0x30, 0xd8, 0xcd, 0xb7, 0x80, 0x70, 0xb4, 0xc5, 0x5a] ∧
  cmac (List.replicate 16 0x00#8) [] =
    [0x43, 0x87, 0xc1, 0x4b, 0x46, 0xef, 0x7e, 0x17, 0x6d, 0xce, 0xef, 0xa8, 0x62, 0xd7, 0x2f, 0xf9]

/-- 44_ccm.md R197: counter mode is its own inverse, under every key and nonce. -/
def Obligations.CounterModeIsItsOwnInverse : Prop :=
  ∀ key nonce d : Bytes, ccmCtr key nonce (ccmCtr key nonce d) = d

/-- 44_ccm.md R203, first law: decrypting what encryption gave returns the plaintext, for every key, nonce, AAD and
message and both MIC sizes. -/
def Obligations.CcmDecryptOfEncryptIsThePlaintext : Prop :=
  ∀ (key nonce aad msg : Bytes) (m : Nat), m = 4 ∨ m = 8 →
    let out := ccmEncrypt key nonce aad msg m
    ccmDecrypt key nonce aad (out.take msg.length) (out.drop msg.length) m = some msg

/-- 44_ccm.md R203 at the machine: a CCM_DEC of what a CCM_ENC left in BUF, under the same key, nonce and AAD regions, which
the output did not touch (an empty AAD may stand anywhere), completes without an error and writes the plaintext. -/
def Obligations.CcmDecAfterCcmEncRestoresThePlaintext : Prop :=
  ∀ (m : Nat) (s t u : State) (p q : Snapshot), m = 4 ∨ m = 8 → s.pending = some p → p.buf = s.buf →
    exec (.ccmEnc m) s = .next t → t.errCode = .ok →
    Apart p.regs.outOff.toNat (p.regs.msgLen.toNat + m) p.regs.keyOff.toNat 16 →
    Apart p.regs.outOff.toNat (p.regs.msgLen.toNat + m) p.regs.nonceOff.toNat 13 →
    (p.regs.aadLen = 0 ∨
      Apart p.regs.outOff.toNat (p.regs.msgLen.toNat + m) p.regs.aadOff.toNat p.regs.aadLen.toNat) →
    u.pending = some q → u.cfg = s.cfg → q.buf = t.buf →
    q.regs = { p.regs with msgOff := p.regs.outOff, outOff := q.regs.outOff } →
    Fits u.cfg q.regs.outOff.toNat p.regs.msgLen.toNat →
    ∃ v, exec (.ccmDec m) u = .next v ∧
      CompletesOk u v q.regs.outOff.toNat (p.buf.read p.regs.msgOff.toNat p.regs.msgLen.toNat)

/-- 42_cmac.md R145 at the machine: two CMAC commands under the same key whose segments concatenate to the same message
write the same tag, however the message is split. -/
def Obligations.CmacIgnoresHowTheMessageIsSplit : Prop :=
  ∀ (a b : Nat) (s t s' t' : State) (p q : Snapshot), s.pending = some p → t.pending = some q →
    p.buf.read p.regs.keyOff.toNat 16 = q.buf.read q.regs.keyOff.toNat 16 →
    (([p.regs.seg0, p.regs.seg1, p.regs.seg2, p.regs.seg3].take a).flatMap fun g => p.buf.read g.off.toNat g.len.toNat) =
      (([q.regs.seg0, q.regs.seg1, q.regs.seg2, q.regs.seg3].take b).flatMap fun g =>
        q.buf.read g.off.toNat g.len.toNat) →
    exec (.cmac a) s = .next s' → exec (.cmac b) t = .next t' → s'.errCode = .ok → t'.errCode = .ok →
    s'.buf.read p.regs.outOff.toNat 16 = t'.buf.read q.regs.outOff.toNat 16
end

