-- ==== Sys2Proof/Laws/Decode.lean ====
section
/-! SUPPORT. What the decoder can answer, said once: which words are a command, and of which fields. -/

namespace Sys2Proof

theorem requireZero_ok {l : List Nat} {i j : Instr} : requireZero l i = .ok j ↔ (∀ n ∈ l, n = 0) ∧ i = j := by
  unfold requireZero
  split
  · rename_i h
    simp only [List.all_eq_true, beq_iff_eq] at h
    simp only [Except.ok.injEq, iff_and_self]
    intro _
    exact h
  · rename_i h
    simp only [List.all_eq_true, beq_iff_eq] at h
    simp [h]

theorem requireZero_error {l : List Nat} {i : Instr} {e : DecodeError} :
    requireZero l i = .error e ↔ (∃ n ∈ l, n ≠ 0) ∧ e = .rsvdBits := by
  unfold requireZero
  split
  · rename_i h
    simp only [List.all_eq_true, beq_iff_eq] at h
    simp only [reduceCtorEq, false_iff, not_and]
    rintro ⟨n, hn, hne⟩
    exact absurd (h n hn) hne
  · rename_i h
    simp only [List.all_eq_true, beq_iff_eq, not_forall] at h
    obtain ⟨n, hn, hne⟩ := h
    constructor
    · intro h
      cases h
      exact ⟨⟨n, hn, hne⟩, rfl⟩
    · rintro ⟨-, rfl⟩
      rfl

/-- The width of a field bounds its value. -/
theorem bits_lt (w : Word) (hi lo : Nat) : bits w hi lo < 2 ^ (hi + 1 - lo) := Nat.mod_lt _ (by positivity)

end Sys2Proof
end

