-- ==== Sys2Proof/Laws/State.lean ====
section
/-! SUPPORT. One lemma per field per update of State, each by rfl, so that no proof unfolds a record update. -/

namespace Sys2Proof.Machine

/-- BUSY is the presence of the pending command (10_state.md R46; log 6). -/
theorem State.busy_eq (s : State) : s.busy = s.pending.isSome := rfl

theorem State.busy_of_pending {s : State} {p : Snapshot} (h : s.pending = some p) : s.busy = true := by
  simp [State.busy, h]

theorem State.busy_iff {s : State} : s.busy = true ↔ ∃ p, s.pending = some p := by
  simp [State.busy, Option.isSome_iff_exists]

theorem State.idle_iff {s : State} : s.busy = false ↔ s.pending = none := by
  simp [State.busy]

@[simp] theorem State.capture_cmd (s : State) : s.capture.cmd = s.cmd := rfl

@[simp] theorem State.capture_regs (s : State) : s.capture.regs = s.regs := rfl

@[simp] theorem State.capture_buf (s : State) : s.capture.buf = s.buf := rfl

/-! ### an accepted start -/

@[simp] theorem State.startCommand_busy (s : State) (v : BitVec 31) : (s.startCommand v).busy = true := rfl

@[simp] theorem State.startCommand_cfg (s : State) (v : BitVec 31) : (s.startCommand v).cfg = s.cfg := rfl

@[simp] theorem State.startCommand_cmd (s : State) (v : BitVec 31) : (s.startCommand v).cmd = v := rfl

@[simp] theorem State.startCommand_pending (s : State) (v : BitVec 31) : (s.startCommand v).pending = some ⟨v, s.regs, s.buf⟩ := rfl

@[simp] theorem State.startCommand_done (s : State) (v : BitVec 31) : (s.startCommand v).done = false := rfl

@[simp] theorem State.startCommand_busyErr (s : State) (v : BitVec 31) : (s.startCommand v).busyErr = s.busyErr := rfl

@[simp] theorem State.startCommand_errCode (s : State) (v : BitVec 31) : (s.startCommand v).errCode = .ok := rfl

@[simp] theorem State.startCommand_errDetail (s : State) (v : BitVec 31) : (s.startCommand v).errDetail = .noDetail := rfl

@[simp] theorem State.startCommand_doneIe (s : State) (v : BitVec 31) : (s.startCommand v).doneIe = s.doneIe := rfl

@[simp] theorem State.startCommand_busyErrIe (s : State) (v : BitVec 31) : (s.startCommand v).busyErrIe = s.busyErrIe := rfl

@[simp] theorem State.startCommand_regs (s : State) (v : BitVec 31) : (s.startCommand v).regs = s.regs := rfl

@[simp] theorem State.startCommand_buf (s : State) (v : BitVec 31) : (s.startCommand v).buf = s.buf := rfl

@[simp] theorem State.startCommand_schedule (s : State) (v : BitVec 31) : (s.startCommand v).schedule = s.schedule := rfl

@[simp] theorem State.startCommand_readData (s : State) (v : BitVec 31) : (s.startCommand v).readData = s.readData := rfl

@[simp] theorem State.startCommand_draws (s : State) (v : BitVec 31) : (s.startCommand v).draws = s.draws := rfl

/-! ### a completion -/

@[simp] theorem State.complete_busy (s : State) (c : ErrCode) (d : ErrDetail) (b : Buf) : (s.complete c d b).busy = false := rfl

@[simp] theorem State.complete_cfg (s : State) (c : ErrCode) (d : ErrDetail) (b : Buf) : (s.complete c d b).cfg = s.cfg := rfl

@[simp] theorem State.complete_cmd (s : State) (c : ErrCode) (d : ErrDetail) (b : Buf) : (s.complete c d b).cmd = s.cmd := rfl

@[simp] theorem State.complete_pending (s : State) (c : ErrCode) (d : ErrDetail) (b : Buf) : (s.complete c d b).pending = none := rfl

@[simp] theorem State.complete_done (s : State) (c : ErrCode) (d : ErrDetail) (b : Buf) : (s.complete c d b).done = true := rfl

@[simp] theorem State.complete_busyErr (s : State) (c : ErrCode) (d : ErrDetail) (b : Buf) : (s.complete c d b).busyErr = s.busyErr := rfl

@[simp] theorem State.complete_errCode (s : State) (c : ErrCode) (d : ErrDetail) (b : Buf) : (s.complete c d b).errCode = c := rfl

@[simp] theorem State.complete_errDetail (s : State) (c : ErrCode) (d : ErrDetail) (b : Buf) : (s.complete c d b).errDetail = d := rfl

@[simp] theorem State.complete_doneIe (s : State) (c : ErrCode) (d : ErrDetail) (b : Buf) : (s.complete c d b).doneIe = s.doneIe := rfl

@[simp] theorem State.complete_busyErrIe (s : State) (c : ErrCode) (d : ErrDetail) (b : Buf) : (s.complete c d b).busyErrIe = s.busyErrIe := rfl

@[simp] theorem State.complete_regs (s : State) (c : ErrCode) (d : ErrDetail) (b : Buf) : (s.complete c d b).regs = s.regs := rfl

@[simp] theorem State.complete_buf (s : State) (c : ErrCode) (d : ErrDetail) (b : Buf) : (s.complete c d b).buf = b := rfl

@[simp] theorem State.complete_schedule (s : State) (c : ErrCode) (d : ErrDetail) (b : Buf) : (s.complete c d b).schedule = s.schedule := rfl

@[simp] theorem State.complete_readData (s : State) (c : ErrCode) (d : ErrDetail) (b : Buf) : (s.complete c d b).readData = s.readData := rfl

@[simp] theorem State.complete_draws (s : State) (c : ErrCode) (d : ErrDetail) (b : Buf) : (s.complete c d b).draws = s.draws := rfl

/-! ### a completion without an error -/

@[simp] theorem State.succeed_busy (s : State) (off : Nat) (bs : Bytes) : (s.succeed off bs).busy = false := rfl

@[simp] theorem State.succeed_cfg (s : State) (off : Nat) (bs : Bytes) : (s.succeed off bs).cfg = s.cfg := rfl

@[simp] theorem State.succeed_cmd (s : State) (off : Nat) (bs : Bytes) : (s.succeed off bs).cmd = s.cmd := rfl

@[simp] theorem State.succeed_pending (s : State) (off : Nat) (bs : Bytes) : (s.succeed off bs).pending = none := rfl

@[simp] theorem State.succeed_done (s : State) (off : Nat) (bs : Bytes) : (s.succeed off bs).done = true := rfl

@[simp] theorem State.succeed_busyErr (s : State) (off : Nat) (bs : Bytes) : (s.succeed off bs).busyErr = s.busyErr := rfl

@[simp] theorem State.succeed_errCode (s : State) (off : Nat) (bs : Bytes) : (s.succeed off bs).errCode = .ok := rfl

@[simp] theorem State.succeed_errDetail (s : State) (off : Nat) (bs : Bytes) : (s.succeed off bs).errDetail = .noDetail := rfl

@[simp] theorem State.succeed_doneIe (s : State) (off : Nat) (bs : Bytes) : (s.succeed off bs).doneIe = s.doneIe := rfl

@[simp] theorem State.succeed_busyErrIe (s : State) (off : Nat) (bs : Bytes) : (s.succeed off bs).busyErrIe = s.busyErrIe := rfl

@[simp] theorem State.succeed_regs (s : State) (off : Nat) (bs : Bytes) : (s.succeed off bs).regs = s.regs := rfl

@[simp] theorem State.succeed_buf (s : State) (off : Nat) (bs : Bytes) : (s.succeed off bs).buf = s.buf.write off bs := rfl

@[simp] theorem State.succeed_schedule (s : State) (off : Nat) (bs : Bytes) : (s.succeed off bs).schedule = s.schedule := rfl

@[simp] theorem State.succeed_readData (s : State) (off : Nat) (bs : Bytes) : (s.succeed off bs).readData = s.readData := rfl

@[simp] theorem State.succeed_draws (s : State) (off : Nat) (bs : Bytes) : (s.succeed off bs).draws = s.draws := rfl

/-! ### InvalidParameters -/

@[simp] theorem State.raiseInvalid_busy (s : State) (d : ErrDetail) : (s.raiseInvalid d).busy = false := rfl

@[simp] theorem State.raiseInvalid_cfg (s : State) (d : ErrDetail) : (s.raiseInvalid d).cfg = s.cfg := rfl

@[simp] theorem State.raiseInvalid_cmd (s : State) (d : ErrDetail) : (s.raiseInvalid d).cmd = s.cmd := rfl

@[simp] theorem State.raiseInvalid_pending (s : State) (d : ErrDetail) : (s.raiseInvalid d).pending = none := rfl

@[simp] theorem State.raiseInvalid_done (s : State) (d : ErrDetail) : (s.raiseInvalid d).done = true := rfl

@[simp] theorem State.raiseInvalid_busyErr (s : State) (d : ErrDetail) : (s.raiseInvalid d).busyErr = s.busyErr := rfl

@[simp] theorem State.raiseInvalid_errCode (s : State) (d : ErrDetail) : (s.raiseInvalid d).errCode = .invalidParameters := rfl

@[simp] theorem State.raiseInvalid_errDetail (s : State) (d : ErrDetail) : (s.raiseInvalid d).errDetail = d := rfl

@[simp] theorem State.raiseInvalid_doneIe (s : State) (d : ErrDetail) : (s.raiseInvalid d).doneIe = s.doneIe := rfl

@[simp] theorem State.raiseInvalid_busyErrIe (s : State) (d : ErrDetail) : (s.raiseInvalid d).busyErrIe = s.busyErrIe := rfl

@[simp] theorem State.raiseInvalid_regs (s : State) (d : ErrDetail) : (s.raiseInvalid d).regs = s.regs := rfl

@[simp] theorem State.raiseInvalid_buf (s : State) (d : ErrDetail) : (s.raiseInvalid d).buf = s.buf := rfl

@[simp] theorem State.raiseInvalid_schedule (s : State) (d : ErrDetail) : (s.raiseInvalid d).schedule = s.schedule := rfl

@[simp] theorem State.raiseInvalid_readData (s : State) (d : ErrDetail) : (s.raiseInvalid d).readData = s.readData := rfl

@[simp] theorem State.raiseInvalid_draws (s : State) (d : ErrDetail) : (s.raiseInvalid d).draws = s.draws := rfl

/-! ### AuthenticationFailed -/

@[simp] theorem State.raiseAuthenticationFailed_busy (s : State) (off n : Nat) : (s.raiseAuthenticationFailed off n).busy = false := rfl

@[simp] theorem State.raiseAuthenticationFailed_cfg (s : State) (off n : Nat) : (s.raiseAuthenticationFailed off n).cfg = s.cfg := rfl

@[simp] theorem State.raiseAuthenticationFailed_cmd (s : State) (off n : Nat) : (s.raiseAuthenticationFailed off n).cmd = s.cmd := rfl

@[simp] theorem State.raiseAuthenticationFailed_pending (s : State) (off n : Nat) : (s.raiseAuthenticationFailed off n).pending = none := rfl

@[simp] theorem State.raiseAuthenticationFailed_done (s : State) (off n : Nat) : (s.raiseAuthenticationFailed off n).done = true := rfl

@[simp] theorem State.raiseAuthenticationFailed_busyErr (s : State) (off n : Nat) : (s.raiseAuthenticationFailed off n).busyErr = s.busyErr := rfl

@[simp] theorem State.raiseAuthenticationFailed_errCode (s : State) (off n : Nat) : (s.raiseAuthenticationFailed off n).errCode = .authenticationFailed := rfl

@[simp] theorem State.raiseAuthenticationFailed_errDetail (s : State) (off n : Nat) : (s.raiseAuthenticationFailed off n).errDetail = .noDetail := rfl

@[simp] theorem State.raiseAuthenticationFailed_doneIe (s : State) (off n : Nat) : (s.raiseAuthenticationFailed off n).doneIe = s.doneIe := rfl

@[simp] theorem State.raiseAuthenticationFailed_busyErrIe (s : State) (off n : Nat) : (s.raiseAuthenticationFailed off n).busyErrIe = s.busyErrIe := rfl

@[simp] theorem State.raiseAuthenticationFailed_regs (s : State) (off n : Nat) : (s.raiseAuthenticationFailed off n).regs = s.regs := rfl

@[simp] theorem State.raiseAuthenticationFailed_buf (s : State) (off n : Nat) : (s.raiseAuthenticationFailed off n).buf = s.buf.write off (freeBytes s.draws off n) := rfl

@[simp] theorem State.raiseAuthenticationFailed_schedule (s : State) (off n : Nat) : (s.raiseAuthenticationFailed off n).schedule = s.schedule := rfl

@[simp] theorem State.raiseAuthenticationFailed_readData (s : State) (off n : Nat) : (s.raiseAuthenticationFailed off n).readData = s.readData := rfl

@[simp] theorem State.raiseAuthenticationFailed_draws (s : State) (off n : Nat) : (s.raiseAuthenticationFailed off n).draws = s.draws + 1 := rfl

/-! ### a write of STATUS -/

@[simp] theorem State.writeStatus_busy (s : State) (v : Word) : (s.writeStatus v).busy = s.busy := rfl

@[simp] theorem State.writeStatus_cfg (s : State) (v : Word) : (s.writeStatus v).cfg = s.cfg := rfl

@[simp] theorem State.writeStatus_cmd (s : State) (v : Word) : (s.writeStatus v).cmd = s.cmd := rfl

@[simp] theorem State.writeStatus_pending (s : State) (v : Word) : (s.writeStatus v).pending = s.pending := rfl

@[simp] theorem State.writeStatus_done (s : State) (v : Word) : (s.writeStatus v).done = (s.done && !v.getLsbD 1) := rfl

@[simp] theorem State.writeStatus_busyErr (s : State) (v : Word) : (s.writeStatus v).busyErr = (s.busyErr && !v.getLsbD 2) := rfl

@[simp] theorem State.writeStatus_errCode (s : State) (v : Word) : (s.writeStatus v).errCode = s.errCode := rfl

@[simp] theorem State.writeStatus_errDetail (s : State) (v : Word) : (s.writeStatus v).errDetail = s.errDetail := rfl

@[simp] theorem State.writeStatus_doneIe (s : State) (v : Word) : (s.writeStatus v).doneIe = s.doneIe := rfl

@[simp] theorem State.writeStatus_busyErrIe (s : State) (v : Word) : (s.writeStatus v).busyErrIe = s.busyErrIe := rfl

@[simp] theorem State.writeStatus_regs (s : State) (v : Word) : (s.writeStatus v).regs = s.regs := rfl

@[simp] theorem State.writeStatus_buf (s : State) (v : Word) : (s.writeStatus v).buf = s.buf := rfl

@[simp] theorem State.writeStatus_schedule (s : State) (v : Word) : (s.writeStatus v).schedule = s.schedule := rfl

@[simp] theorem State.writeStatus_readData (s : State) (v : Word) : (s.writeStatus v).readData = s.readData := rfl

@[simp] theorem State.writeStatus_draws (s : State) (v : Word) : (s.writeStatus v).draws = s.draws := rfl

/-! ### a write of IRQ_EN -/

@[simp] theorem State.writeIrqEn_busy (s : State) (v : Word) : (s.writeIrqEn v).busy = s.busy := rfl

@[simp] theorem State.writeIrqEn_cfg (s : State) (v : Word) : (s.writeIrqEn v).cfg = s.cfg := rfl

@[simp] theorem State.writeIrqEn_cmd (s : State) (v : Word) : (s.writeIrqEn v).cmd = s.cmd := rfl

@[simp] theorem State.writeIrqEn_pending (s : State) (v : Word) : (s.writeIrqEn v).pending = s.pending := rfl

@[simp] theorem State.writeIrqEn_done (s : State) (v : Word) : (s.writeIrqEn v).done = s.done := rfl

@[simp] theorem State.writeIrqEn_busyErr (s : State) (v : Word) : (s.writeIrqEn v).busyErr = s.busyErr := rfl

@[simp] theorem State.writeIrqEn_errCode (s : State) (v : Word) : (s.writeIrqEn v).errCode = s.errCode := rfl

@[simp] theorem State.writeIrqEn_errDetail (s : State) (v : Word) : (s.writeIrqEn v).errDetail = s.errDetail := rfl

@[simp] theorem State.writeIrqEn_doneIe (s : State) (v : Word) : (s.writeIrqEn v).doneIe = v.getLsbD 0 := rfl

@[simp] theorem State.writeIrqEn_busyErrIe (s : State) (v : Word) : (s.writeIrqEn v).busyErrIe = v.getLsbD 1 := rfl

@[simp] theorem State.writeIrqEn_regs (s : State) (v : Word) : (s.writeIrqEn v).regs = s.regs := rfl

@[simp] theorem State.writeIrqEn_buf (s : State) (v : Word) : (s.writeIrqEn v).buf = s.buf := rfl

@[simp] theorem State.writeIrqEn_schedule (s : State) (v : Word) : (s.writeIrqEn v).schedule = s.schedule := rfl

@[simp] theorem State.writeIrqEn_readData (s : State) (v : Word) : (s.writeIrqEn v).readData = s.readData := rfl

@[simp] theorem State.writeIrqEn_draws (s : State) (v : Word) : (s.writeIrqEn v).draws = s.draws := rfl

/-! ### the reset input -/

@[simp] theorem State.assertReset_busy (s : State) : (s.assertReset).busy = false := rfl

@[simp] theorem State.assertReset_cfg (s : State) : (s.assertReset).cfg = s.cfg := rfl

@[simp] theorem State.assertReset_cmd (s : State) : (s.assertReset).cmd = 0 := rfl

@[simp] theorem State.assertReset_pending (s : State) : (s.assertReset).pending = none := rfl

@[simp] theorem State.assertReset_done (s : State) : (s.assertReset).done = false := rfl

@[simp] theorem State.assertReset_busyErr (s : State) : (s.assertReset).busyErr = false := rfl

@[simp] theorem State.assertReset_errCode (s : State) : (s.assertReset).errCode = .ok := rfl

@[simp] theorem State.assertReset_errDetail (s : State) : (s.assertReset).errDetail = .noDetail := rfl

@[simp] theorem State.assertReset_doneIe (s : State) : (s.assertReset).doneIe = false := rfl

@[simp] theorem State.assertReset_busyErrIe (s : State) : (s.assertReset).busyErrIe = false := rfl

@[simp] theorem State.assertReset_regs (s : State) : (s.assertReset).regs = OperandRegs.zero := rfl

@[simp] theorem State.assertReset_buf (s : State) : (s.assertReset).buf = ⟨[], s.draws⟩ := rfl

@[simp] theorem State.assertReset_schedule (s : State) : (s.assertReset).schedule = s.schedule := rfl

@[simp] theorem State.assertReset_readData (s : State) : (s.assertReset).readData = s.readData := rfl

@[simp] theorem State.assertReset_draws (s : State) : (s.assertReset).draws = s.draws + 1 := rfl

/-! ### The snapshot a command reads -/

theorem State.snapshot_of_pending {s : State} {p : Snapshot} (h : s.pending = some p) : s.snapshot = p := by
  simp [State.snapshot, h]

theorem State.snapshot_of_idle {s : State} (h : s.pending = none) : s.snapshot = s.capture := by
  simp [State.snapshot, h]

end Sys2Proof.Machine
end

