-- ==== Sys2Proof/Laws/Ops.lean ====
section
/-! SUPPORT. Each shared operation, everything it can do said once: the checks of a command (60_exceptions.md R245), the
bus (20_memory.md R62 to R69), and the interrupt level (60_exceptions.md R249). -/

namespace Sys2Proof.Machine

/-! ### The checks -/

theorem State.ifInRange_pos {s t : State} {l : List Region} (h : ∀ r ∈ l, inRange s.cfg r = true) : s.ifInRange l t = t := by
  simp [State.ifInRange, List.all_eq_true.mpr h]

theorem State.ifInRange_neg {s t : State} {l : List Region} (h : ∃ r ∈ l, inRange s.cfg r = false) :
    s.ifInRange l t = s.raiseInvalid .range := by
  obtain ⟨r, hr, hf⟩ := h
  have : ¬ (l.all (inRange s.cfg) = true) := fun ha => by simp [List.all_eq_true.mp ha r hr] at hf
  simp [State.ifInRange, this]

/-- The range check either passes, with every region in range, or ends the command with RANGE. -/
theorem State.ifInRange_cases (s t : State) (l : List Region) :
    ((∀ r ∈ l, inRange s.cfg r = true) ∧ s.ifInRange l t = t) ∨
    ((∃ r ∈ l, inRange s.cfg r = false) ∧ s.ifInRange l t = s.raiseInvalid .range) := by
  by_cases h : ∀ r ∈ l, inRange s.cfg r = true
  · exact .inl ⟨h, State.ifInRange_pos h⟩
  · have h' : ∃ r ∈ l, inRange s.cfg r = false := by
      simpa using h
    exact .inr ⟨h', State.ifInRange_neg h'⟩

/-- The CCM checks either pass, with MICSZ 4 or 8 and a legal AAD length, or end the command with their detail. -/
theorem State.ifCcmOk_cases (s t : State) (m a : Nat) :
    ((m = 4 ∨ m = 8) ∧ a < 0xFF00 ∧ s.ifCcmOk m a t = t) ∨
    (∃ d, d ≠ .noDetail ∧ ccmCheck m a = some d ∧ s.ifCcmOk m a t = s.raiseInvalid d) := by
  by_cases h₁ : m > 16
  · exact .inr ⟨.micTooLarge, by simp, by simp [ccmCheck, h₁], by simp [State.ifCcmOk, ccmCheck, h₁]⟩
  by_cases h₂ : m ≠ 4 ∧ m ≠ 8
  · exact .inr ⟨.micUnsupported, by simp, by simp [ccmCheck, h₁, h₂], by simp [State.ifCcmOk, ccmCheck, h₁, h₂]⟩
  by_cases h₃ : a ≥ 0xFF00
  · refine .inr ⟨.aadTooLong, by simp, ?_, ?_⟩ <;> simp only [State.ifCcmOk, ccmCheck, if_neg h₁, if_neg h₂, if_pos h₃]
  · refine .inl ⟨by omega, by omega, ?_⟩
    simp only [State.ifCcmOk, ccmCheck, if_neg h₁, if_neg h₂, if_neg h₃]

theorem inRange_iff {cfg : Config} {r : Region} : inRange cfg r = true ↔ r.len = 0 ∨ r.off + r.len ≤ cfg.bufSize := by
  simp [inRange]

/-! ### The bus -/

theorem busRead_refused {s : State} {off bits : Nat} (h : supportedAccess off bits = false) :
    busRead s off bits = .refused .unsupportedAccess := by simp [busRead, h]

theorem busWrite_refused {s : State} {off bits : Nat} {v : Word} (h : supportedAccess off bits = false) :
    busWrite s off bits v = .refused .unsupportedAccess := by simp [busWrite, h]

/-- A supported read answers, and changes nothing but the answer and the draw count (20_memory.md R67, R69). -/
theorem busRead_supported (s : State) {off bits : Nat} (h : supportedAccess off bits = true) :
    ∃ v d, busRead s off bits = .next { s with readData := some v, draws := d } ∧
      (d = s.draws ∨ (s.busy = true ∧ Config.bufBase ≤ off ∧ d = s.draws + 1)) := by
  by_cases hb : off < Config.bufBase
  · exact ⟨s.readRegOffset off, s.draws, by simp [busRead, h, hb], .inl rfl⟩
  · refine ⟨s.readBufWord (off - Config.bufBase) (bits / 8), if s.busy then s.draws + 1 else s.draws, ?_, ?_⟩
    · simp [busRead, h, hb]
    · by_cases hs : s.busy = true
      · exact .inr ⟨hs, by omega, by simp [hs]⟩
      · exact .inl (by simp [hs])

/-- A supported write while busy, STATUS apart, only sets BUSYERR (20_memory.md R68). -/
theorem busWrite_busy {s : State} {off bits : Nat} {v : Word} (h : supportedAccess off bits = true) (hb : s.busy = true)
    (ho : off ≠ Reg.status.offset) : busWrite s off bits v = .next { s with busyErr := true } := by
  have : (off != Reg.status.offset) = true := by simpa using ho
  simp only [busWrite, h, hb, this, Bool.and_self, if_true]

theorem regAt_status : regAt Reg.status.offset = some .status := by decide

/-- A write of STATUS, busy or not, is its W1C action (10_state.md R32). -/
theorem busWrite_status (s : State) (v : Word) : busWrite s Reg.status.offset 32 v = .next (s.writeStatus v) := by
  have h : supportedAccess Reg.status.offset 32 = true := by decide
  have h2 : Reg.status.offset < Config.bufBase := by decide
  simp only [busWrite, h, if_true, bne_self_eq_false, Bool.and_false, Bool.false_eq_true, if_false, h2,
    State.writeRegOffset, regAt_status, State.writeReg]

/-- A supported write while idle: a register write, nothing at a reserved offset, or bytes of BUF. -/
theorem busWrite_idle {s : State} {off bits : Nat} {v : Word} (h : supportedAccess off bits = true) (hb : s.busy = false) :
    busWrite s off bits v = .next (if off < Config.bufBase then s.writeRegOffset off v
      else { s with buf := s.buf.hostWrite s.cfg.bufSize (off - Config.bufBase) (leBytes (bits / 8) v) }) := by
  simp only [busWrite, h, hb, if_true, Bool.false_and, Bool.false_eq_true, if_false]
  split <;> rfl

/-- Every supported write answers. -/
theorem busWrite_cases (s : State) {off bits : Nat} (v : Word) (h : supportedAccess off bits = true) :
    (s.busy = true ∧ off ≠ Reg.status.offset ∧ busWrite s off bits v = .next { s with busyErr := true }) ∨
    (s.busy = true ∧ off = Reg.status.offset ∧ busWrite s off bits v = .next (s.writeStatus v)) ∨
    (s.busy = false ∧ off < Config.bufBase ∧ busWrite s off bits v = .next (s.writeRegOffset off v)) ∨
    (s.busy = false ∧ Config.bufBase ≤ off ∧ busWrite s off bits v =
      .next { s with buf := s.buf.hostWrite s.cfg.bufSize (off - Config.bufBase) (leBytes (bits / 8) v) }) := by
  cases hb : s.busy with
  | true =>
    by_cases ho : off = Reg.status.offset
    · subst ho
      refine .inr (.inl ⟨rfl, rfl, ?_⟩)
      have h2 : Reg.status.offset < Config.bufBase := by decide
      simp only [busWrite, h, if_true, bne_self_eq_false, Bool.and_false, Bool.false_eq_true, if_false, h2,
        State.writeRegOffset, regAt_status, State.writeReg]
    · exact .inl ⟨rfl, ho, busWrite_busy h hb ho⟩
  | false =>
    by_cases ho : off < Config.bufBase
    · exact .inr (.inr (.inl ⟨rfl, ho, by simp [busWrite_idle h hb, ho]⟩))
    · exact .inr (.inr (.inr ⟨rfl, by omega, by simp [busWrite_idle h hb, ho]⟩))

/-- ENGINE_BASE + off is window offset off, whatever ENGINE_BASE is (20_memory.md R60). -/
theorem windowOffset_base (off : Nat) (h : off < Config.windowSize) : windowOffset (Config.engineBase + off) = some off := by
  simp [windowOffset, h]

theorem windowOffset_some {addr off : Nat} (h : windowOffset addr = some off) :
    addr = Config.engineBase + off ∧ off < Config.windowSize := by
  unfold windowOffset at h
  split at h
  · cases h; omega
  · cases h

/-- The register map is one to one: a register's offset leads back to it (10_state.md R22). -/
theorem regAt_offset (r : Reg) : regAt r.offset = some r := by
  cases r with
  | operand r => cases r <;> decide
  | _ => decide

theorem regAt_some {off : Nat} {r : Reg} (h : regAt off = some r) : off = r.offset := by
  have h' : (r.offset == off) = true := List.find?_some (p := fun r : Reg => r.offset == off) h
  exact (beq_iff_eq.mp h').symm

/-! ### Operand registers -/

theorem OperandRegs.read_write_other (g : OperandRegs) {r q : OpReg} (v : Word) (h : q ≠ r) :
    (g.write r v).read q = g.read q := by
  cases r <;> cases q <;> first | exact absurd rfl h | rfl

end Sys2Proof.Machine
end

