-- ==== Sys2Proof/Laws/Assembly.lean ====
section
/-! SUPPORT. The host's accesses by register, whatever ENGINE_BASE is, and the word of a `go` statement (30_encoding.md
R105). -/

namespace Sys2Proof.Machine

theorem Reg.offset_lt (r : Reg) : r.offset < Config.bufBase := by
  cases r with
  | operand r => cases r <;> decide
  | _ => decide

theorem Reg.offset_supported (r : Reg) : supportedAccess r.offset 32 = true := by
  cases r with
  | operand r => cases r <;> decide
  | _ => decide

theorem hostAccess_read_base (s : State) {off : Nat} (bits : Nat) (h : off < Config.windowSize) :
    hostAccess s (.read (Config.engineBase + off) bits) = busRead s off bits := by
  simp only [hostAccess, windowOffset_base off h]

theorem hostAccess_write_base (s : State) {off : Nat} (bits : Nat) (v : Word) (h : off < Config.windowSize) :
    hostAccess s (.write (Config.engineBase + off) bits v) = busWrite s off bits v := by
  simp only [hostAccess, windowOffset_base off h]

/-- A register read answers the register, busy or not (20_memory.md R69). -/
theorem hostAccess_regRead (s : State) (r : Reg) :
    hostAccess s (regRead r) = .next { s with readData := some (s.readReg r) } := by
  have hlt : r.offset < Config.windowSize := Nat.lt_trans r.offset_lt (by decide)
  rw [regRead, hostAccess_read_base _ _ hlt]
  simp only [busRead, r.offset_supported, r.offset_lt, if_true, State.readRegOffset, regAt_offset]

/-- A register write while idle is the register's write (10_state.md R23). -/
theorem hostAccess_regWrite_idle {s : State} (r : Reg) (v : Word) (h : s.busy = false) :
    hostAccess s (regWrite r v) = .next (s.writeReg r v) := by
  have hlt : r.offset < Config.windowSize := Nat.lt_trans r.offset_lt (by decide)
  rw [regWrite, hostAccess_write_base _ _ _ hlt, busWrite_idle r.offset_supported h, if_pos r.offset_lt]
  simp only [State.writeRegOffset, regAt_offset]

theorem Mnemonic.opcode_of (i : Instr) : (mnemonicOf i).opcode = opcodeOf i := by cases i <;> rfl

theorem Mnemonic.opcode_lt (mn : Mnemonic) : mn.opcode < 256 := by cases mn <;> decide

/-- The fields of a `go` statement that fit their bits do not overlap, so OR is the sum of 30_encoding.md R90. -/
theorem goWord_eq_sum (mn : Mnemonic) {mic aszmic n : Nat} (h₁ : mic < 32) (h₂ : aszmic < 2) (h₃ : n < 8) :
    goWord mn mic aszmic n =
      BitVec.ofNat 32 (2 ^ 31 + n * 2 ^ 17 + aszmic * 2 ^ 16 + mic * 2 ^ 8 + mn.opcode) := by
  have hop := mn.opcode_lt
  unfold goWord
  congr 1
  rw [Nat.or_assoc, Nat.or_assoc, Nat.or_assoc,
    ← Nat.shiftLeft_add_eq_or_of_lt (i := 8) hop mic,
    ← Nat.shiftLeft_add_eq_or_of_lt (i := 16) (by rw [Nat.shiftLeft_eq]; omega) aszmic,
    ← Nat.shiftLeft_add_eq_or_of_lt (i := 17) (by simp only [Nat.shiftLeft_eq]; omega) n,
    show 0x80000000 = 1 <<< 31 from rfl,
    ← Nat.shiftLeft_add_eq_or_of_lt (i := 31) (by simp only [Nat.shiftLeft_eq]; omega) 1]
  simp only [Nat.shiftLeft_eq]
  omega

end Sys2Proof.Machine
end

