-- ==== Sys2Proof/Laws/Memory.lean ====
section
/-! SUPPORT. BUF: a read after a write, a write leaves every other byte alone, and every operation keeps the canonical
form (20_memory.md R72 to R74, R82; log 3). -/

namespace Sys2Proof.Machine

/-! ### Cells -/

/-- A byte written reads back. -/
theorem cellAt_putCell_same (cs : List Host.Cell) (k : Nat) (v : Byte) : cellAt (putCell cs k v) k = some v := by
  induction cs with
  | nil => simp [putCell, cellAt]
  | cons c cs ih =>
    obtain ⟨a, w⟩ := c
    unfold putCell
    split
    · simp [cellAt]
    · split
      · simp [cellAt]
      · rename_i hlt hne
        simp [cellAt, Ne.symm hne, ih]

theorem cellAt_putCell_other (cs : List Host.Cell) {k j : Nat} (v : Byte) (h : k ≠ j) :
    cellAt (putCell cs k v) j = cellAt cs j := by
  induction cs with
  | nil => simp [putCell, cellAt, h]
  | cons c cs ih =>
    obtain ⟨a, w⟩ := c
    unfold putCell
    split
    · simp [cellAt, h]
    · split
      · rename_i hk
        subst hk
        simp [cellAt, h]
      · simp [cellAt, ih]

/-! ### Bytes -/

@[simp] theorem Buf.set_draw (b : Buf) (k : Nat) (v : Byte) : (b.set k v).draw = b.draw := rfl

@[simp] theorem Buf.get_set_same (b : Buf) (k : Nat) (v : Byte) : (b.set k v).get k = v := by
  simp [Buf.get, Buf.set, cellAt_putCell_same]

theorem Buf.get_set_other (b : Buf) {k j : Nat} (v : Byte) (h : k ≠ j) : (b.set k v).get j = b.get j := by
  simp [Buf.get, Buf.set, Buf.unlisted, cellAt_putCell_other _ _ h]

@[simp] theorem Buf.write_nil (b : Buf) (off : Nat) : b.write off [] = b := rfl

@[simp] theorem Buf.write_cons (b : Buf) (off : Nat) (v : Byte) (vs : Bytes) :
    b.write off (v :: vs) = (b.set off v).write (off + 1) vs := rfl

@[simp] theorem Buf.write_draw (b : Buf) (off : Nat) (bs : Bytes) : (b.write off bs).draw = b.draw := by
  induction bs generalizing b off with
  | nil => rfl
  | cons v vs ih => simp [ih]

/-- A write leaves every byte outside its region alone. -/
theorem Buf.get_write_outside (b : Buf) (off : Nat) (bs : Bytes) (k : Nat) (h : k < off ∨ off + bs.length ≤ k) :
    (b.write off bs).get k = b.get k := by
  induction bs generalizing b off with
  | nil => rfl
  | cons v vs ih =>
    simp only [List.length_cons] at h
    rw [Buf.write_cons, ih _ _ (by omega), Buf.get_set_other _ _ (by omega)]

/-- A byte a write covers reads back. -/
theorem Buf.get_write_inside (b : Buf) (off : Nat) (bs : Bytes) (i : Nat) (h : i < bs.length) :
    (b.write off bs).get (off + i) = bs[i] := by
  induction bs generalizing b off i with
  | nil => simp at h
  | cons v vs ih =>
    rw [Buf.write_cons]
    cases i with
    | zero =>
      rw [Nat.add_zero, Buf.get_write_outside _ _ _ _ (by omega)]
      simp
    | succ i =>
      have := ih (b.set off v) (off + 1) i (by simpa using h)
      rw [show off + (i + 1) = off + 1 + i by omega, this]
      simp

@[simp] theorem Buf.read_length (b : Buf) (off n : Nat) : (b.read off n).length = n := by simp [Buf.read]

theorem Buf.read_getElem (b : Buf) (off n i : Nat) (h : i < (b.read off n).length) : (b.read off n)[i] = b.get (off + i) := by
  simp [Buf.read]

/-- `MemRead` of what `MemWrite` wrote (00_scope.md R10). -/
@[simp] theorem Buf.read_write_same (b : Buf) (off : Nat) (bs : Bytes) : (b.write off bs).read off bs.length = bs := by
  apply List.ext_getElem
  · simp
  · intro i h₁ h₂
    rw [Buf.read_getElem, Buf.get_write_inside _ _ _ _ h₂]

/-- Two buffers that agree on a region read the same there. -/
theorem Buf.read_congr {b c : Buf} {off n : Nat} (h : ∀ k, off ≤ k → k < off + n → b.get k = c.get k) :
    b.read off n = c.read off n := by
  unfold Buf.read
  apply List.map_congr_left
  intro i hi
  rw [List.mem_range] at hi
  exact h _ (by omega) (by omega)

/-- A read outside a write sees the buffer as it was. -/
theorem Buf.read_write_disjoint (b : Buf) (off : Nat) (bs : Bytes) (o n : Nat)
    (h : o + n ≤ off ∨ off + bs.length ≤ o) : (b.write off bs).read o n = b.read o n :=
  Buf.read_congr fun k _ _ => Buf.get_write_outside _ _ _ _ (by omega)

/-! ### The canonical form -/

theorem risingFrom_putCell (cs : List Host.Cell) (lo : Option Nat) (k : Nat) (v : Byte)
    (h : risingFrom lo cs = true) (hk : ∀ l, lo = some l → l < k) : risingFrom lo (putCell cs k v) = true := by
  induction cs generalizing lo with
  | nil =>
    cases lo with
    | none => rfl
    | some l => simp [putCell, risingFrom, hk l rfl]
  | cons c cs ih =>
    obtain ⟨a, w⟩ := c
    simp only [risingFrom, Bool.and_eq_true] at h
    obtain ⟨h₁, h₂⟩ := h
    unfold putCell
    split
    · rename_i hlt
      cases lo with
      | none => simp [risingFrom, hlt, h₂]
      | some l => simp [risingFrom, hlt, h₂, hk l rfl]
    · split
      · rename_i hnlt heq
        subst heq
        cases lo with
        | none => simp [risingFrom, h₂]
        | some l => simp [risingFrom, h₂, hk l rfl]
      · rename_i hnlt hne
        have := ih (some a) h₂ (by intro l hl; cases hl; omega)
        simp only [risingFrom, Bool.and_eq_true]
        exact ⟨h₁, this⟩

theorem all_putCell (cs : List Host.Cell) (k : Nat) (v : Byte) (q : Host.Cell → Bool) (h : cs.all q = true)
    (hk : q (k, v) = true) : (putCell cs k v).all q = true := by
  induction cs with
  | nil => simp [putCell, hk]
  | cons c cs ih =>
    obtain ⟨a, w⟩ := c
    simp only [List.all_cons, Bool.and_eq_true] at h
    unfold putCell
    split
    · simp [h.1, h.2, hk]
    · split
      · simp [h.2, hk]
      · simp [h.1, ih h.2]

@[simp] theorem Buf.wf_empty (size draw : Nat) : Buf.wf size ⟨[], draw⟩ = true := rfl

theorem Buf.wf_set {size : Nat} {b : Buf} (h : b.wf size = true) (k : Nat) (v : Byte) (hk : k < size) :
    (b.set k v).wf size = true := by
  simp only [Buf.wf, Bool.and_eq_true] at h ⊢
  exact ⟨risingFrom_putCell _ _ _ _ h.1 (by simp), all_putCell _ _ _ _ h.2 (by simpa using hk)⟩

theorem Buf.wf_write {size : Nat} {b : Buf} (h : b.wf size = true) (off : Nat) (bs : Bytes)
    (hb : bs.length = 0 ∨ off + bs.length ≤ size) : (b.write off bs).wf size = true := by
  induction bs generalizing b off with
  | nil => exact h
  | cons v vs ih =>
    simp only [List.length_cons] at hb
    exact ih (Buf.wf_set h _ _ (by omega)) _ (by omega)

theorem Buf.wf_hostWrite {size : Nat} {b : Buf} (h : b.wf size = true) (k : Nat) (bs : Bytes) :
    (b.hostWrite size k bs).wf size = true := by
  induction bs generalizing b k with
  | nil => exact h
  | cons v vs ih =>
    unfold Buf.hostWrite
    split
    · exact ih (Buf.wf_set h _ _ ‹_›) _
    · exact ih h _

@[simp] theorem Buf.hostWrite_draw (size : Nat) (b : Buf) (k : Nat) (bs : Bytes) :
    (b.hostWrite size k bs).draw = b.draw := by
  induction bs generalizing b k with
  | nil => rfl
  | cons v vs ih =>
    unfold Buf.hostWrite
    split <;> simp [ih]

/-- A bus write that stays below BUF_SIZE is a plain write. -/
theorem Buf.hostWrite_eq_write {size : Nat} (b : Buf) (k : Nat) (bs : Bytes) (h : k + bs.length ≤ size) :
    b.hostWrite size k bs = b.write k bs := by
  induction bs generalizing b k with
  | nil => rfl
  | cons v vs ih =>
    simp only [List.length_cons] at h
    simp only [Buf.hostWrite, Buf.write_cons]
    rw [if_pos (by omega), ih _ _ (by omega)]

@[simp] theorem freeBytes_length (draw off n : Nat) : (freeBytes draw off n).length = n := by simp [freeBytes]

end Sys2Proof.Machine
end

