-- ==== Sys2Proof/Laws/Crypto.lean ====
section
/-! SUPPORT. The length of every output (00_scope.md R7), and the counter mode as its own inverse (44_ccm.md R197). -/

namespace Sys2Proof.Machine

/-! ### Byte strings -/

@[simp] theorem zeros_length (n : Nat) : (zeros n).length = n := by simp [zeros]

@[simp] theorem xorBytes_length (a b : Bytes) : (xorBytes a b).length = min a.length b.length := by simp [xorBytes]

@[simp] theorem slice_length (b : Bytes) (off n : Nat) : (slice b off n).length = min n (b.length - off) := by
  simp [slice]

@[simp] theorem firstBytes_length (b : Bytes) (n : Nat) : (firstBytes b n).length = min n b.length := by
  simp [firstBytes]

@[simp] theorem lastBytes_length (b : Bytes) (n : Nat) : (lastBytes b n).length = min n b.length := by
  simp [lastBytes]
  omega

@[simp] theorem be16_length (v : Nat) : (be16 v).length = 2 := rfl

@[simp] theorem be32_length (v : Nat) : (be32 v).length = 4 := rfl

theorem slice_append_left (a b : Bytes) : slice (a ++ b) 0 a.length = a := by simp [slice]

theorem slice_append_right (a b : Bytes) : slice (a ++ b) a.length b.length = b := by simp [slice]

/-- XOR with the same string twice gives the string back. -/
theorem xorBytes_xorBytes (a k : Bytes) (h : a.length ≤ k.length) : xorBytes (xorBytes a k) k = a := by
  apply List.ext_getElem
  · simp; omega
  · intro i h₁ h₂
    simp [xorBytes]

/-! ### Lengths of the cryptographic results -/

@[simp] theorem aes_length (k b : Bytes) : (aes k b).length = 16 := by simp [aes, aesLastRound, addRoundKey]

@[simp] theorem cmac_length (k m : Bytes) : (cmac k m).length = 16 := by simp [cmac]

@[simp] theorem s1_length (m : Bytes) : (s1 m).length = 16 := by simp [s1]

@[simp] theorem k1_length (ikm salt info : Bytes) : (k1 ikm salt info).length = 16 := by simp [k1]

@[simp] theorem k2Output_length (n p : Bytes) : (k2Output n p).length = 33 := by simp [k2Output, k2]

@[simp] theorem k3_length (n : Bytes) : (k3 n).length = 8 := by simp [k3]

@[simp] theorem id128_length (n label : Bytes) : (id128 n label).length = 16 := by simp [id128]

@[simp] theorem cmacSegments_length (k : Bytes) (l : List Bytes) : (cmacSegments k l).length = 16 := by simp [cmacSegments]

@[simp] theorem ccmStream_length (key nonce : Bytes) (j : Nat) : (ccmStream key nonce j).length = 16 := by simp [ccmStream]

theorem ccmChain_length (key x : Bytes) (bs : List Bytes) (h : x.length = 16) : (ccmChain key x bs).length = 16 := by
  induction bs generalizing x with
  | nil => simpa [ccmChain] using h
  | cons b bs ih => exact ih _ (by simp)

@[simp] theorem ccmXn_length (key nonce aad p : Bytes) (m : Nat) : (ccmXn key nonce aad p m).length = 16 := by
  exact ccmChain_length _ _ _ (ccmChain_length _ _ _ (by simp))

theorem ccmMic_length (key nonce aad p : Bytes) (m : Nat) (h : m ≤ 16) : (ccmMic key nonce aad p m).length = m := by
  simp [ccmMic]
  omega

@[simp] theorem ccmKeystream_length (key nonce : Bytes) (len : Nat) :
    (ccmKeystream key nonce len).length = 16 * ((len + 15) / 16) := by
  simp [ccmKeystream, List.length_flatMap, Nat.mul_comm]

@[simp] theorem ccmCtr_length (key nonce d : Bytes) : (ccmCtr key nonce d).length = d.length := by
  simp [ccmCtr]
  omega

theorem ccmEncrypt_length (key nonce aad p : Bytes) (m : Nat) (h : m ≤ 16) :
    (ccmEncrypt key nonce aad p m).length = p.length + m := by
  simp [ccmEncrypt, ccmMic_length _ _ _ _ _ h]

@[simp] theorem pduNonce_length (tag b1 : Byte) (h : Bytes) (iv : Nat) :
    (pduNonce tag b1 h iv).length = 8 + min 5 (h.length - 2) := by
  simp [pduNonce]
  omega

theorem nonceNet_length (h : Bytes) (iv : Nat) (hh : h.length = 7) : (nonceNet h iv).length = 13 := by
  simp [nonceNet, hh]

theorem nonceProxy_length (cfg : Config) (h : Bytes) (iv : Nat) (hh : h.length = 7) :
    (nonceProxy cfg h iv).length = 13 := by
  unfold nonceProxy
  split
  · exact nonceNet_length h iv hh
  · split <;> simp [hh]

@[simp] theorem nonceAppl_length (tag : Byte) (seq src dst iv : Nat) (a : Bool) :
    (nonceAppl tag seq src dst iv a).length = 13 := by simp [nonceAppl]

/-! ### What CCM_DEC recovers -/

theorem ccmDecrypt_some {key nonce aad c t p : Bytes} {m : Nat} (h : ccmDecrypt key nonce aad c t m = some p) :
    p = ccmCtr key nonce c ∧ ccmMic key nonce aad p m = t := by
  simp only [ccmDecrypt] at h
  split at h
  · rename_i ht
    cases h
    exact ⟨rfl, ht⟩
  · cases h

theorem ccmDecResult_length {m : Nat} {p : Snapshot} {plain : Bytes} (h : ccmDecResult m p = some plain) :
    plain.length = p.msgLen := by
  obtain ⟨rfl, -⟩ := ccmDecrypt_some h
  simp [Snapshot.bytes, Snapshot.msgRegion]

end Sys2Proof.Machine
end

