-- ==== Sys2Proof/Laws/Exec.lean ====
section
/-! SUPPORT. Everything a command, the engine's turn and one step can do, said once. -/

namespace Sys2Proof.Machine

open Sys2Proof.Safety

/-! ### The three completions, as the statements say them -/

theorem completesOk_succeed (s : State) (off : Nat) (bs : Bytes) : CompletesOk s (s.succeed off bs) off bs where
  frame := ⟨rfl, rfl, rfl, rfl, rfl, rfl, rfl, rfl⟩
  idle := rfl
  done := rfl
  errCode := rfl
  errDetail := rfl
  draws := rfl
  output := by simp
  elsewhere k h := by simpa using Buf.get_write_outside _ _ _ _ h

theorem completesInvalid_raiseInvalid (s : State) (d : ErrDetail) : CompletesInvalid s (s.raiseInvalid d) d where
  frame := ⟨rfl, rfl, rfl, rfl, rfl, rfl, rfl, rfl⟩
  idle := rfl
  done := rfl
  errCode := rfl
  errDetail := rfl
  draws := rfl
  buf := rfl

theorem completesUnauthentic_raise (s : State) (off n : Nat) :
    CompletesUnauthentic s (s.raiseAuthenticationFailed off n) off n where
  frame := ⟨rfl, rfl, rfl, rfl, rfl, rfl, rfl, rfl⟩
  idle := rfl
  done := rfl
  errCode := rfl
  errDetail := rfl
  elsewhere k h := by simpa using Buf.get_write_outside _ _ _ _ (by simpa using h)

/-! ### The commands -/

/-- Every command ends in one of three ways: InvalidParameters, success with its output in range, or, for CCM_DEC only,
AuthenticationFailed (60_exceptions.md R242, R243). -/
def EndsAs (i : Instr) (s t : State) : Prop :=
  (∃ d, d ≠ .noDetail ∧ t = s.raiseInvalid d) ∨
  (∃ bs : Bytes, bs.length = outputLength s.snapshot.regs i ∧
    inRange s.cfg ⟨s.snapshot.regs.outOff.toNat, bs.length⟩ = true ∧ t = s.succeed s.snapshot.regs.outOff.toNat bs) ∨
  (∃ m, i = .ccmDec m ∧ inRange s.cfg ⟨s.snapshot.regs.outOff.toNat, s.snapshot.msgLen⟩ = true ∧
    t = s.raiseAuthenticationFailed s.snapshot.regs.outOff.toNat s.snapshot.msgLen)

/-- A command that only checks its ranges and writes `bs` ends as `EndsAs` says. -/
theorem EndsAs.of_range {i : Instr} {s : State} {l : List Region} {n : Nat} {bs : Bytes} (hn : outputLength s.snapshot.regs i = n)
    (hbs : bs.length = n) (hl : s.snapshot.outRegion n ∈ l) :
    EndsAs i s (s.ifInRange l (s.succeed (s.snapshot.outRegion n).off bs)) := by
  rcases State.ifInRange_cases s (s.succeed (s.snapshot.outRegion n).off bs) l with ⟨hr, he⟩ | ⟨-, he⟩
  · refine .inr (.inl ⟨bs, by omega, ?_, he⟩)
    rw [hbs]
    exact hr _ hl
  · exact .inl ⟨.range, by simp, he⟩

theorem execAesEcb_ends (s : State) : ∃ t, execAesEcb s = .next t ∧ EndsAs .aesEcb s t :=
  ⟨_, rfl, EndsAs.of_range rfl (by simp) (by simp)⟩

theorem execCmac_ends (n : Nat) (s : State) : ∃ t, execCmac n s = .next t ∧ EndsAs (.cmac n) s t := by
  refine ⟨_, rfl, ?_⟩
  split
  · exact .inl ⟨.segcnt, by simp, rfl⟩
  · exact EndsAs.of_range rfl (by simp) (by simp)

theorem execS1_ends (s : State) : ∃ t, execS1 s = .next t ∧ EndsAs .s1 s t :=
  ⟨_, rfl, EndsAs.of_range rfl (by simp) (by simp)⟩

theorem execK1_ends (s : State) : ∃ t, execK1 s = .next t ∧ EndsAs .k1 s t :=
  ⟨_, rfl, EndsAs.of_range rfl (by simp) (by simp)⟩

theorem execK2_ends (s : State) : ∃ t, execK2 s = .next t ∧ EndsAs .k2 s t :=
  ⟨_, rfl, EndsAs.of_range rfl (by simp) (by simp)⟩

theorem execK3_ends (s : State) : ∃ t, execK3 s = .next t ∧ EndsAs .k3 s t :=
  ⟨_, rfl, EndsAs.of_range rfl (by simp) (by simp)⟩

theorem execK4_ends (s : State) : ∃ t, execK4 s = .next t ∧ EndsAs .k4 s t :=
  ⟨_, rfl, EndsAs.of_range rfl (by simp) (by simp)⟩

theorem execId128_ends (s : State) : ∃ t, execId128 s = .next t ∧ EndsAs .id128 s t :=
  ⟨_, rfl, EndsAs.of_range rfl (by simp) (by simp)⟩

theorem outputLength_msgLen (p : Snapshot) : (p.regs.read .msgLen).toNat = p.msgLen := by
  simp only [OperandRegs.read, Snapshot.msgLen, BitVec.toNat_setWidth]
  omega

theorem execCcmEnc_ends (m : Nat) (s : State) : ∃ t, execCcmEnc m s = .next t ∧ EndsAs (.ccmEnc m) s t := by
  refine ⟨_, rfl, ?_⟩
  rcases State.ifCcmOk_cases s _ m s.snapshot.aadRegion.len with ⟨hm, -, he⟩ | ⟨d, hd, -, he⟩
  · rw [he]
    refine EndsAs.of_range ?_ ?_ (by simp)
    · simp [outputLength, outputLength_msgLen]
    · rw [ccmEncrypt_length _ _ _ _ _ (by omega)]
      simp [Snapshot.bytes, Snapshot.msgRegion]
  · rw [he]
    exact .inl ⟨d, hd, rfl⟩

theorem execCcmDec_ends (m : Nat) (s : State) : ∃ t, execCcmDec m s = .next t ∧ EndsAs (.ccmDec m) s t := by
  refine ⟨_, rfl, ?_⟩
  rcases State.ifCcmOk_cases s _ m s.snapshot.aadRegion.len with ⟨hm, -, he⟩ | ⟨d, hd, -, he⟩
  · rw [he]
    rcases State.ifInRange_cases s _ _ with ⟨hr, he⟩ | ⟨-, he⟩
    · rw [he]
      have hout := hr (s.snapshot.outRegion s.snapshot.msgLen) (by simp)
      split
      · rename_i plain hp
        refine .inr (.inl ⟨plain, ?_, ?_, rfl⟩)
        · simp [outputLength, outputLength_msgLen, ccmDecResult_length hp]
        · rw [ccmDecResult_length hp]
          exact hout
      · exact .inr (.inr ⟨m, rfl, hout, rfl⟩)
    · rw [he]
      exact .inl ⟨.range, by simp, rfl⟩
  · rw [he]
    exact .inl ⟨d, hd, rfl⟩

theorem execNonceNet_ends (s : State) : ∃ t, execNonceNet s = .next t ∧ EndsAs .nonceNet s t :=
  ⟨_, rfl, EndsAs.of_range rfl (nonceNet_length _ _ (by simp [Snapshot.bytes, Snapshot.msgRegion])) (by simp)⟩

theorem execNonceProxy_ends (s : State) : ∃ t, execNonceProxy s = .next t ∧ EndsAs .nonceProxy s t :=
  ⟨_, rfl, EndsAs.of_range rfl (nonceProxy_length _ _ _ (by simp [Snapshot.bytes, Snapshot.msgRegion])) (by simp)⟩

theorem execNonceApp_ends (a : Bool) (s : State) : ∃ t, execNonceApp a s = .next t ∧ EndsAs (.nonceApp a) s t :=
  ⟨_, rfl, EndsAs.of_range rfl (by simp) (by simp)⟩

theorem execNonceDev_ends (a : Bool) (s : State) : ∃ t, execNonceDev a s = .next t ∧ EndsAs (.nonceDev a) s t :=
  ⟨_, rfl, EndsAs.of_range rfl (by simp) (by simp)⟩

/-- Every command answers a next state, one of the three ends. -/
theorem exec_ends (i : Instr) (s : State) : ∃ t, exec i s = .next t ∧ EndsAs i s t := by
  cases i with
  | aesEcb => exact execAesEcb_ends s
  | cmac n => exact execCmac_ends n s
  | s1 => exact execS1_ends s
  | k1 => exact execK1_ends s
  | k2 => exact execK2_ends s
  | k3 => exact execK3_ends s
  | k4 => exact execK4_ends s
  | id128 => exact execId128_ends s
  | ccmEnc m => exact execCcmEnc_ends m s
  | ccmDec m => exact execCcmDec_ends m s
  | nonceNet => exact execNonceNet_ends s
  | nonceProxy => exact execNonceProxy_ends s
  | nonceApp a => exact execNonceApp_ends a s
  | nonceDev a => exact execNonceDev_ends a s

theorem exec_cases {i : Instr} {s t : State} (h : exec i s = .next t) : EndsAs i s t := by
  obtain ⟨t', h', he⟩ := exec_ends i s
  rw [h] at h'
  cases h'
  exact he

/-- The engine's turn: nothing while idle; otherwise a command, or InvalidParameters for a word that is none. -/
theorem engineTurn_cases (s : State) :
    (s.pending = none ∧ engineTurn s = .next s) ∨
    (∃ p i, s.pending = some p ∧ decode p.cmdWord = .ok i ∧ engineTurn s = exec i s) ∨
    (∃ p e, s.pending = some p ∧ decode p.cmdWord = .error e ∧ engineTurn s = .next (s.raiseInvalid (decodeDetail e))) := by
  cases hp : s.pending with
  | none => exact .inl ⟨rfl, by simp [engineTurn, hp]⟩
  | some p =>
    cases hd : decode p.cmdWord with
    | ok i => exact .inr (.inl ⟨p, i, rfl, hd, by simp [engineTurn, hp, hd]⟩)
    | error e => exact .inr (.inr ⟨p, e, rfl, hd, by simp [engineTurn, hp, hd]⟩)

/-- One step is one turn: the engine's, a host access, or a reset. -/
theorem step_cases (s : State) :
    (s.schedule = [] ∧ step s = engineTurn s) ∨
    (∃ rest, s.schedule = .engine :: rest ∧ step s = engineTurn { s with schedule := rest }) ∨
    (∃ a rest, s.schedule = .host a :: rest ∧ step s = hostAccess { s with schedule := rest } a) ∨
    (∃ rest, s.schedule = .resetInput :: rest ∧ step s = .next ({ s with schedule := rest }.assertReset)) := by
  unfold step takeTurn
  cases hs : s.schedule with
  | nil => exact .inl ⟨rfl, rfl⟩
  | cons t rest =>
    cases t with
    | engine => exact .inr (.inl ⟨rest, rfl, rfl⟩)
    | host a => exact .inr (.inr (.inl ⟨a, rest, rfl, rfl⟩))
    | resetInput => exact .inr (.inr (.inr ⟨rest, rfl, rfl⟩))

end Sys2Proof.Machine
end

