-- ==== Sys2Proof/Laws/PerInstr.lean ====
section
/-! SUPPORT. Per command: the word that starts it holds the command's own fields, 0 in every reserved bit and 1 in GO
(30_encoding.md R90, R96, R97). -/

namespace Sys2Proof.Laws.EncodeFields

/-- The fields of 30_encoding.md R90 in the word `encode` gives. -/
def Statement (i : Instr) : Prop :=
  i.wf = true →
    bits (encode i) 7 0 = opcodeOf i ∧ bits (encode i) 12 8 = micszOf i ∧ bits (encode i) 15 13 = 0 ∧
    bits (encode i) 16 16 = aszmicOf i ∧ bits (encode i) 19 17 = segcntOf i ∧ bits (encode i) 30 20 = 0 ∧
    bits (encode i) 31 31 = 1

/-- The fields of any word put together as R90 lays them out. -/
theorem fields_of_sum (op mic asz seg : Nat) (h₁ : op < 256) (h₂ : mic < 32) (h₃ : asz < 2) (h₄ : seg < 8) :
    let w : Word := BitVec.ofNat 32 (2 ^ 31 + seg * 2 ^ 17 + asz * 2 ^ 16 + mic * 2 ^ 8 + op)
    bits w 7 0 = op ∧ bits w 12 8 = mic ∧ bits w 15 13 = 0 ∧ bits w 16 16 = asz ∧ bits w 19 17 = seg ∧
      bits w 30 20 = 0 ∧ bits w 31 31 = 1 := by
  simp only [bits, BitVec.toNat_ofNat]
  omega

theorem aesEcb : Statement .aesEcb := fun _ => fields_of_sum 0x01 0 0 0 (by decide) (by decide) (by decide) (by decide)

theorem cmac (segcnt : Nat) : Statement (.cmac segcnt) := fun h =>
  fields_of_sum 0x02 0 0 segcnt (by decide) (by decide) (by decide) (by simpa [Instr.wf] using h)

theorem s1 : Statement .s1 := fun _ => fields_of_sum 0x03 0 0 0 (by decide) (by decide) (by decide) (by decide)

theorem k1 : Statement .k1 := fun _ => fields_of_sum 0x04 0 0 0 (by decide) (by decide) (by decide) (by decide)

theorem k2 : Statement .k2 := fun _ => fields_of_sum 0x05 0 0 0 (by decide) (by decide) (by decide) (by decide)

theorem k3 : Statement .k3 := fun _ => fields_of_sum 0x06 0 0 0 (by decide) (by decide) (by decide) (by decide)

theorem k4 : Statement .k4 := fun _ => fields_of_sum 0x07 0 0 0 (by decide) (by decide) (by decide) (by decide)

theorem id128 : Statement .id128 := fun _ => fields_of_sum 0x08 0 0 0 (by decide) (by decide) (by decide) (by decide)

theorem ccmEnc (micsz : Nat) : Statement (.ccmEnc micsz) := fun h =>
  fields_of_sum 0x09 micsz 0 0 (by decide) (by simpa [Instr.wf] using h) (by decide) (by decide)

theorem ccmDec (micsz : Nat) : Statement (.ccmDec micsz) := fun h =>
  fields_of_sum 0x0A micsz 0 0 (by decide) (by simpa [Instr.wf] using h) (by decide) (by decide)

theorem nonceNet : Statement .nonceNet := fun _ => fields_of_sum 0x0B 0 0 0 (by decide) (by decide) (by decide) (by decide)

theorem nonceProxy : Statement .nonceProxy := fun _ =>
  fields_of_sum 0x0C 0 0 0 (by decide) (by decide) (by decide) (by decide)

theorem nonceApp (aszmic : Bool) : Statement (.nonceApp aszmic) := fun _ =>
  fields_of_sum 0x0D 0 aszmic.toNat 0 (by decide) (by decide) (by cases aszmic <;> decide) (by decide)

theorem nonceDev (aszmic : Bool) : Statement (.nonceDev aszmic) := fun _ =>
  fields_of_sum 0x0E 0 aszmic.toNat 0 (by decide) (by decide) (by cases aszmic <;> decide) (by decide)

end Sys2Proof.Laws.EncodeFields
end

