-- ==== Sys2Proof/Tests/Slice0.lean ====
section
/-! SUPPORT. The author's own tests. Expected values are the spec's (95_test_vectors.md, 30_encoding.md R104, or words
written out from R90), and each statement with hypotheses has a witness that meets them. -/

namespace Sys2Proof.Tests

open Sys2Proof.Machine Sys2Proof.Safety

/-! ### Well-formedness: one past each field's range is refused, the range's last value is not -/

theorem test_wf_segcnt : (Instr.cmac 8).wf = false ∧ (Instr.cmac 7).wf = true := by decide

theorem test_wf_micsz_enc : (Instr.ccmEnc 32).wf = false ∧ (Instr.ccmEnc 31).wf = true := by decide

theorem test_wf_micsz_dec : (Instr.ccmDec 32).wf = false ∧ (Instr.ccmDec 31).wf = true := by decide

/-! ### Decoding: each row of 30_encoding.md R98 as the word of R90, GO, reserved, SEGCNT, ASZMIC, reserved, MICSZ, OPCODE -/

theorem test_decode_block_cipher_and_cmac :
    decode 0b1_00000000000_000_0_000_00000_00000001#32 = .ok .aesEcb ∧
    decode 0b1_00000000000_011_0_000_00000_00000010#32 = .ok (.cmac 3) ∧
    decode 0b1_00000000000_111_0_000_00000_00000010#32 = .ok (.cmac 7) := by decide

theorem test_decode_kdf :
    decode 0b1_00000000000_000_0_000_00000_00000011#32 = .ok .s1 ∧
    decode 0b1_00000000000_000_0_000_00000_00000100#32 = .ok .k1 ∧
    decode 0b1_00000000000_000_0_000_00000_00000101#32 = .ok .k2 ∧
    decode 0b1_00000000000_000_0_000_00000_00000110#32 = .ok .k3 ∧
    decode 0b1_00000000000_000_0_000_00000_00000111#32 = .ok .k4 ∧
    decode 0b1_00000000000_000_0_000_00000_00001000#32 = .ok .id128 := by decide

theorem test_decode_ccm :
    decode 0b1_00000000000_000_0_000_00100_00001001#32 = .ok (.ccmEnc 4) ∧
    decode 0b1_00000000000_000_0_000_10001_00001001#32 = .ok (.ccmEnc 17) ∧
    decode 0b1_00000000000_000_0_000_01000_00001010#32 = .ok (.ccmDec 8) := by decide

theorem test_decode_nonce :
    decode 0b1_00000000000_000_0_000_00000_00001011#32 = .ok .nonceNet ∧
    decode 0b1_00000000000_000_0_000_00000_00001100#32 = .ok .nonceProxy ∧
    decode 0b1_00000000000_000_1_000_00000_00001101#32 = .ok (.nonceApp true) ∧
    decode 0b1_00000000000_000_0_000_00000_00001101#32 = .ok (.nonceApp false) ∧
    decode 0b1_00000000000_000_1_000_00000_00001110#32 = .ok (.nonceDev true) := by decide

/-- R99: reserved opcodes; R96, R97: one stray bit at a time. -/
theorem test_decode_rejects :
    decode 0x80000000#32 = .error .badOpcode ∧ decode 0x8000000F#32 = .error .badOpcode ∧
    decode 0x800000FF#32 = .error .badOpcode ∧ decode 0x80001101#32 = .error .rsvdBits ∧
    decode 0x80002001#32 = .error .rsvdBits ∧ decode 0xC0000001#32 = .error .rsvdBits ∧
    decode 0x80020409#32 = .error .rsvdBits ∧ decode 0x8001000B#32 = .error .rsvdBits := by decide

/-- GO is no part of a command's identity (30_encoding.md R103). -/
theorem test_decode_ignores_go : decode 0x00000409#32 = decode 0x80000409#32 := by decide

theorem test_encode :
    encode (.cmac 3) = 0x80060002#32 ∧ encode (.ccmDec 8) = 0x8000080A#32 ∧ encode (.nonceApp true) = 0x8001000D#32 := by
  decide

/-- The host's table interface: the word without GO. -/
theorem test_decode_table_word :
    decodeTableWord 32 0x00060002 = some (.cmac 3) ∧ decodeTableWord 32 0x0000000F = none := by decide

/-! ### Reset and the step -/

theorem test_reset_buf_wf : State.reset.buf.wf State.reset.cfg.bufSize = true := by decide

/-- A command placed by `withFetchWord` is the one the next step runs. -/
theorem test_step_runs_placed_command :
    step (State.reset.withFetchWord 32 0x00000001) = exec .aesEcb (State.reset.withFetchWord 32 0x00000001) := rfl

/-- 95_test_vectors.md V-REG-6: a write of CMD with GO = 0 starts nothing. V-REG-7: with GO = 1 STATUS is 1, CMD reads the
word without GO. -/
theorem test_cmd_write :
    (State.reset.writeCmd 0x00000809#32).busy = false ∧
    (State.reset.writeCmd 0x80000809#32).statusWord = 0x00000001#32 ∧
    (State.reset.writeCmd 0x80000809#32).readReg .cmd = 0x00000809#32 := by decide

/-! ### The assembly notation -/

/-- The words of 95 programs P3 and P6, and R104's illegal word: AES_ECB takes mic=17 in the notation. -/
theorem test_goWord :
    goWord .ccmDec 8 0 0 = 0x8000080A#32 ∧ goWord .ccmEnc 17 0 0 = 0x80001109#32 ∧ goWord .cmac 0 0 5 = 0x800A0002#32 ∧
    goWord .aesEcb 17 0 0 = 0x80001101#32 := by decide

/-- `wait` on an idle engine reads STATUS once, however long the order goes on. -/
theorem test_wait_idle :
    programTurns [.program, .program, .program] AsmStmt.wait.acts State.reset = [.host (regRead .status)] := by
  have h : hostAccess State.reset (regRead .status) = _ := hostAccess_regRead State.reset .status
  simp only [AsmStmt.acts, programTurns, HostAct.bus, h]
  rfl

/-- `wait` comes again at STATUS 0x1 (BUSY) and ends at 0x6; `expect 2` goes on at 0x22 and ends the program at 0x2. -/
theorem test_wait_and_expect :
    HostAct.poll.andThen (some 0x1#32) [.check 2] = [.poll, .check 2] ∧
    HostAct.poll.andThen (some 0x6#32) [.check 2] = [.check 2] ∧
    (HostAct.check 2).andThen (some 0x22#32) [.poll] = [.poll] ∧
    (HostAct.check 2).andThen (some 0x2#32) [.poll] = [] := by decide

/-! ### Known answers, one or two per command -/

/-- The `n` bytes of a hexadecimal numeral, the first the most significant. -/
def hex (n v : Nat) : Bytes := (List.range n).map fun i => BitVec.ofNat 8 (v / 256 ^ (n - 1 - i))

/-- A buffer with the bytes `bs` from offset `off`. -/
def Buffer (off : Nat) (bs : Bytes) : Buf := (⟨[], 0⟩ : Buf).write off bs

/-- A state with the command word `w` pending under these operands. -/
def running (w : Nat) (regs : OperandRegs) (buf : Buf) : State :=
  { State.reset with regs := regs, buf := buf }.withFetchWord 32 w

/-- STATUS and `n` bytes of BUF after a step. -/
def shown (off n : Nat) : Host.Outcome State Fault Refusal → Option (Nat × Bytes)
  | .next t => some (t.statusWord.toNat, t.buf.read off n)
  | .fault _ => none
  | .refused _ => none

/-- STATUS after a step. -/
def status (o : Host.Outcome State Fault Refusal) : Option Nat := (shown 0 0 o).map Prod.fst

/-- 95 G-AES-1 (FIPS-197, C.1). -/
theorem test_aesEcb :
    shown 0x20 16 (step (running 0x00000001 { OperandRegs.zero with msgOff := 16, outOff := 32 }
      (Buffer 0 (hex 32 0x000102030405060708090a0b0c0d0e0f00112233445566778899aabbccddeeff)))) =
    some (0x002, hex 16 0x69c4e0d86a7b0430d8cdb78070b4c55a) := by decide +kernel

/-- 95 V-AES-5: key, block and output overlap. V-AES-6: KEY_OFF = 0x3F1 is out of range. -/
theorem test_aesEcb_overlap_and_range :
    shown 0 16 (step (running 0x00000001 OperandRegs.zero (Buffer 0 (zeros 16)))) =
      some (0x002, hex 16 0x66e94bd4ef8a2c3b884cfa59ca342b2e) ∧
    status (step (running 0x00000001 { OperandRegs.zero with keyOff := 0x3F1 } (Buffer 0 []))) = some 0x712 := by
  decide +kernel

/-- 95 G-CMAC-3, its 40 bytes in two segments. -/
theorem test_cmac :
    shown 0x50 16 (step (running 0x00040002
      { OperandRegs.zero with seg0 := ⟨16, 17⟩, seg1 := ⟨33, 23⟩, outOff := 0x50 }
      (Buffer 0 (hex 16 0x2b7e151628aed2a6abf7158809cf4f3c ++
        hex 40 0x6bc1bee22e409f96e93d7e117393172aae2d8a571e03ac9c9eb76fac45af8e5130c81c46a35ce411)))) =
    some (0x002, hex 16 0xdfa66747de9ae63030ca32611497c827) := by decide +kernel

/-- 95 V-ERR-16: SEGCNT = 5. -/
theorem test_cmac_segcnt : status (step (running 0x000A0002 OperandRegs.zero (Buffer 0 []))) = some 0x512 := by
  decide +kernel

/-- 95 G-S1-1. -/
theorem test_s1 :
    shown 0x10 16 (step (running 0x00000003 { OperandRegs.zero with seg0 := ⟨0, 4⟩, outOff := 16 }
      (Buffer 0 (hex 4 0x74657374)))) = some (0x002, hex 16 0xb73cefbd641ef2ea598c2b6efb62f79c) := by decide +kernel

/-- 95 G-K1-1: salt at KEY_OFF, ikm SEG0, info SEG1. -/
theorem test_k1 :
    shown 0x30 16 (step (running 0x00000004
      { OperandRegs.zero with seg0 := ⟨16, 16⟩, seg1 := ⟨32, 16⟩, outOff := 0x30 }
      (Buffer 0 (hex 16 0x2ba14ffa0df84a2831938d57d276cab4 ++ hex 16 0x3216d1509884b533248541792b877f98 ++
        hex 16 0x5a09d60797eeb4478aada59db3352a0d)))) =
    some (0x002, hex 16 0xf6ed15a8934afbe7d83e8dcb57fcf5d7) := by decide +kernel

/-- 95 G-K2-2. -/
theorem test_k2 :
    shown 0x20 33 (step (running 0x00000005 { OperandRegs.zero with seg0 := ⟨16, 1⟩, outOff := 0x20 }
      (Buffer 0 (hex 17 0x7dd7364cd842ad18c17c2b820c84c3d600)))) =
    some (0x002, hex 1 0x68 ++ hex 16 0x0953fa93e7caac9638f58820220a398e ++
      hex 16 0x8b84eedec100067d670971dd2aa700cf) := by decide +kernel

/-- 95 G-K3-2. -/
theorem test_k3 :
    shown 0x20 8 (step (running 0x00000006 { OperandRegs.zero with outOff := 0x20 }
      (Buffer 0 (hex 16 0x7dd7364cd842ad18c17c2b820c84c3d6)))) = some (0x002, hex 8 0x3ecaff672f673370) := by
  decide +kernel

/-- 95 G-K4-1. -/
theorem test_k4 :
    shown 0x20 1 (step (running 0x00000007 { OperandRegs.zero with outOff := 0x20 }
      (Buffer 0 (hex 16 0x3216d1509884b533248541792b877f98)))) = some (0x002, [0x38]) := by decide +kernel

/-- 95 G-ID-1: the label "nkik". -/
theorem test_id128 :
    shown 0x20 16 (step (running 0x00000008 { OperandRegs.zero with seg0 := ⟨16, 4⟩, outOff := 0x20 }
      (Buffer 0 (hex 20 0x7dd7364cd842ad18c17c2b820c84c3d66e6b696b)))) =
    some (0x002, hex 16 0x84396c435ac48560b5965385253e210c) := by decide +kernel

/-- 95 G-CCM-2 (RFC 3610 packet vector 1): an AAD, and a message of more than one block. -/
theorem test_ccmEnc :
    shown 0x60 31 (step (running 0x00000809
      { OperandRegs.zero with nonceOff := 16, aadOff := 29, aadLen := 8, msgOff := 37, msgLen := 23, outOff := 0x60 }
      (Buffer 0 (hex 16 0xc0c1c2c3c4c5c6c7c8c9cacbcccdcecf ++ hex 13 0x00000003020100a0a1a2a3a4a5 ++
        hex 8 0x0001020304050607 ++ hex 23 0x08090a0b0c0d0e0f101112131415161718191a1b1c1d1e)))) =
    some (0x002, hex 23 0x588c979a61c663d2f066d0c2c0f989806d5f6b61dac384 ++ hex 8 0x17e8d12cfdf926e0) := by
  decide +kernel

/-- 95 V-ERR-9, V-ERR-11, V-ERR-14, V-ERR-15: the CCM checks in their order. -/
theorem test_ccmEnc_checks :
    status (step (running 0x00001109 { OperandRegs.zero with aadLen := 0xFF00 } (Buffer 0 []))) = some 0x312 ∧
    status (step (running 0x00001009 OperandRegs.zero (Buffer 0 []))) = some 0x412 ∧
    status (step (running 0x00000409 { OperandRegs.zero with aadLen := 0xFF00 } (Buffer 0 []))) = some 0x612 ∧
    status (step (running 0x00000409 { OperandRegs.zero with aadLen := 0xFEFF } (Buffer 0 []))) = some 0x712 := by
  decide +kernel

/-- 95 program P3: message 1's network layer, key, nonce, ciphertext and MIC in BUF, and its operands. -/
def p3 (mic : Nat) : State :=
  running 0x0000080A { OperandRegs.zero with nonceOff := 16, msgOff := 29, msgLen := 13, outOff := 0x40 }
    (Buffer 0 (hex 16 0x0953fa93e7caac9638f58820220a398e ++ hex 13 0x00800000011201000012345678 ++
      hex 13 0xb5e5bfdacbaf6cb7fb6bff871f ++ hex 8 mic))

/-- 95 G-CCM-1, decrypted. -/
theorem test_ccmDec :
    shown 0x40 13 (step (p3 0x035444ce83a670df)) = some (0x002, hex 13 0xfffd034b50057e400000010000) := by decide +kernel

/-- The same with one bit of the MIC flipped: AuthenticationFailed. -/
theorem test_ccmDec_tampered : status (step (p3 0x035444ce83a670de)) = some 0x022 := by decide +kernel

/-- 95 V-NON-1. -/
theorem test_nonceNet :
    shown 0x20 13 (step (running 0x0000000B { OperandRegs.zero with ivIndex := 0x12345678, outOff := 0x20 }
      (Buffer 0 (hex 7 0x68800000011201)))) = some (0x002, hex 13 0x00800000011201000012345678) := by decide +kernel

/-- 95 V-NON-2. -/
theorem test_nonceProxy :
    shown 0x20 13 (step (running 0x0000000C { OperandRegs.zero with ivIndex := 0x12345678, outOff := 0x20 }
      (Buffer 0 (hex 7 0x68800000011201)))) = some (0x002, hex 13 0x03800000011201000012345678) := by decide +kernel

/-- 95 V-NON-3, V-NON-4: the two parameters. -/
theorem test_nonceProxy_parameters :
    nonceProxy ⟨1024, true, true⟩ (hex 7 0x68800000011201) 0x12345678 = hex 13 0x03000000011201000012345678 ∧
    nonceProxy ⟨1024, false, true⟩ (hex 7 0x68800000011201) 0x12345678 = hex 13 0x00800000011201000012345678 := by
  decide +kernel

/-- 95 V-NON-7. -/
theorem test_nonceApp :
    shown 0x20 13 (step (running 0x0001000D
      { OperandRegs.zero with seq := 7, addr := 0xFFFF1201, ivIndex := 0x12345678, outOff := 0x20 } (Buffer 0 []))) =
    some (0x002, hex 13 0x01800000071201ffff12345678) := by decide +kernel

/-- 95 V-NON-8: SEQ bit 31 is replaced. -/
theorem test_nonceDev :
    shown 0x20 13 (step (running 0x0000000E
      { OperandRegs.zero with seq := 0x80000007, addr := 0xFFFF1201, ivIndex := 0x12345678, outOff := 0x20 }
      (Buffer 0 []))) = some (0x002, hex 13 0x02000000071201ffff12345678) := by decide +kernel

/-- 95 V-ERR-2, V-ERR-8: the opcode and the reserved bits are checked before the ranges. -/
theorem test_check_order :
    status (step (running 0x0000000F { OperandRegs.zero with keyOff := 0x3F8 } (Buffer 0 []))) = some 0x112 ∧
    status (step (running 0x00000401 { OperandRegs.zero with keyOff := 0x3F8 } (Buffer 0 []))) = some 0x212 := by
  decide +kernel

/-! ### Witnesses: for each statement with hypotheses, a concrete state and operands that meet them together -/

/-- 64 zero bytes listed from BUF offset 0. -/
def zeroBuf : Buf := Buffer 0 (zeros 64)

/-- A command word pending over `zeroBuf`, every operand register 0 but the output at 32. -/
def busyWith (w : Nat) : State := running w { OperandRegs.zero with outOff := 32 } zeroBuf

theorem witness_DecodeOfEncodeIsIdentity : (Instr.cmac 7).wf = true ∧ (Instr.ccmEnc 31).wf = true := by decide

theorem witness_EncodeOfDecodeRestoresTheWord : decode 0x000E0002#32 = .ok (.cmac 7) := by decide

theorem witness_DecodedCommandIsWellFormed : decode 0x00001F0A#32 = .ok (.ccmDec 31) := by decide

/-- The three ends of the reserved opcodes: 0x00, 0x0F and 0xFF. -/
theorem witness_ReservedOpcodeCompletesWithBadOpcode :
    (∃ p, (busyWith 0x00).pending = some p ∧ bits (p.cmd.setWidth 32) 7 0 = 0x00) ∧
    (∃ p, (busyWith 0x0F).pending = some p ∧ 0x0F ≤ bits (p.cmd.setWidth 32) 7 0) ∧
    (∃ p, (busyWith 0xFF).pending = some p ∧ 0x0F ≤ bits (p.cmd.setWidth 32) 7 0) :=
  ⟨⟨_, rfl, by decide⟩, ⟨_, rfl, by decide⟩, ⟨_, rfl, by decide⟩⟩

/-- One word for each of the five kinds of stray bit. -/
theorem witness_StrayBitsCompleteWithRsvdBits :
    (∃ p, (busyWith 0x00002001).pending = some p ∧ bits (p.cmd.setWidth 32) 7 0 = 0x01 ∧
      bits (p.cmd.setWidth 32) 15 13 ≠ 0) ∧
    (∃ p, (busyWith 0x4000000E).pending = some p ∧ bits (p.cmd.setWidth 32) 7 0 = 0x0E ∧
      bits (p.cmd.setWidth 32) 30 20 ≠ 0) ∧
    (∃ p, (busyWith 0x00000108).pending = some p ∧ bits (p.cmd.setWidth 32) 7 0 = 0x08 ∧
      bits (p.cmd.setWidth 32) 12 8 ≠ 0) ∧
    (∃ p, (busyWith 0x0001000C).pending = some p ∧ bits (p.cmd.setWidth 32) 7 0 = 0x0C ∧
      bits (p.cmd.setWidth 32) 16 16 ≠ 0) ∧
    (∃ p, (busyWith 0x00020003).pending = some p ∧ bits (p.cmd.setWidth 32) 7 0 = 0x03 ∧
      bits (p.cmd.setWidth 32) 19 17 ≠ 0) :=
  ⟨⟨_, rfl, by decide⟩, ⟨_, rfl, by decide⟩, ⟨_, rfl, by decide⟩, ⟨_, rfl, by decide⟩, ⟨_, rfl, by decide⟩⟩

/-- No turn listed and the engine's turn listed, with a word that decodes, and with one that is no command. -/
theorem witness_StepRunsTheDecodedCommand :
    ((busyWith 0x0F).schedule = [] ∧ { busyWith 0x0F with schedule := [.engine] }.schedule = .engine :: []) ∧
    (∃ p, (busyWith 0x01).pending = some p ∧ decode p.cmdWord = .ok .aesEcb ∧ (busyWith 0x01).schedule = []) ∧
    (∃ p, { busyWith 0x01 with schedule := [.engine] }.pending = some p ∧ decode p.cmdWord = .ok .aesEcb ∧
      { busyWith 0x01 with schedule := [.engine] }.schedule = .engine :: []) :=
  ⟨⟨rfl, rfl⟩, ⟨_, rfl, by decide, rfl⟩, ⟨_, rfl, by decide, rfl⟩⟩

/-- One state for each clause. -/
theorem witness_StepTakesTheNextTurn :
    { State.reset with schedule := [.host (regRead .status)] }.schedule = .host (regRead .status) :: [] ∧
    { busyWith 0x01 with schedule := [.resetInput] }.schedule = .resetInput :: [] ∧
    ({ State.reset with schedule := [.engine] }.pending = none ∧
      { State.reset with schedule := [.engine] }.schedule = .engine :: []) ∧
    State.reset.pending = none ∧ State.reset.schedule = [] := ⟨rfl, rfl, ⟨rfl, rfl⟩, rfl, rfl⟩

/-- The fields at their ends, on a command that does not use them, and a command with its own. -/
theorem witness_GoWordHoldsItsFields : 31 < 32 ∧ 1 < 2 ∧ 7 < 8 ∧ (Instr.cmac 7).wf = true := by decide

/-- A `go` with an unused field, and the `go` of a command. -/
theorem witness_GoStatementStartsItsCommand :
    (∃ s : State, s.busy = false ∧
      s.schedule = ((AsmStmt.go .aesEcb 17 0 0).acts.map fun a => .host a.bus) ++ []) ∧
    (∃ s : State, s.busy = false ∧ s.schedule = ((AsmStmt.go .ccmEnc 8 0 0).acts.map fun a => .host a.bus) ++ [] ∧
      (Instr.ccmEnc 8).wf = true ∧ AsmStmt.go .ccmEnc 8 0 0 = AsmStmt.goCommand (.ccmEnc 8)) :=
  ⟨⟨{ State.reset with schedule := (AsmStmt.go .aesEcb 17 0 0).acts.map fun a => .host a.bus }, rfl, rfl⟩,
    ⟨{ State.reset with schedule := (AsmStmt.go .ccmEnc 8 0 0).acts.map fun a => .host a.bus }, rfl, rfl, rfl, rfl⟩⟩

/-- Idle with GO = 1, idle with GO = 0, and busy. -/
theorem witness_CmdWriteStartsOrStores :
    State.reset.busy = false ∧ (0x80000001#32).getLsbD 31 = true ∧ (0x7FFFFFFF#32).getLsbD 31 = false ∧
    (busyWith 0x01).busy = true := by decide

/-- Busy: a register, the last byte of BUF, and STATUS. -/
theorem witness_WriteWhileBusyIsLost :
    (busyWith 0x01).busy = true ∧ supportedAccess 0x004 32 = true ∧ supportedAccess 0x7FF 8 = true ∧
    supportedAccess 0x008 32 = true := by decide

theorem witness_OperandRegisterReadsBackItsStoredBits : State.reset.busy = false := rfl

/-- The four kinds of reserved offset at their ends, in an idle and in a busy state. -/
theorem witness_IdAndReservedOffsetsAreFixed :
    State.reset.busy = false ∧ (busyWith 0x01).busy = true ∧ supportedAccess 0x038 32 = true ∧
    supportedAccess 0x03C 32 = true ∧ supportedAccess 0x060 32 = true ∧ supportedAccess 0x3FC 32 = true ∧
    supportedAccess (0x400 + { busyWith 0x01 with cfg := ⟨65, true, false⟩ }.cfg.bufSize) 8 = true := by decide

/-- The first and the last byte, aligned half and aligned word of BUF, idle. -/
theorem witness_BufAccessIsLittleEndian :
    State.reset.busy = false ∧ (0 < State.reset.cfg.bufSize ∧ 1023 < State.reset.cfg.bufSize) ∧
    (0 + 2 ≤ State.reset.cfg.bufSize ∧ 1022 % 2 = 0 ∧ 1022 + 2 ≤ State.reset.cfg.bufSize) ∧
    (0 + 4 ≤ State.reset.cfg.bufSize ∧ 1020 % 4 = 0 ∧ 1020 + 4 ≤ State.reset.cfg.bufSize) := by decide

/-- A BUF of 65 bytes: its last byte under a half and under a word. -/
theorem witness_BufAccessAcrossTheEndIsBytewise :
    ∃ s : State, s.busy = false ∧ (64 % 2 = 0 ∧ 64 < s.cfg.bufSize ∧ s.cfg.bufSize < 64 + 2) ∧
      (64 % 4 = 0 ∧ 64 < s.cfg.bufSize ∧ s.cfg.bufSize < 64 + 4) :=
  ⟨{ State.reset with cfg := ⟨65, true, false⟩ }, by decide⟩

/-- Idle and busy, a register and BUF. -/
theorem witness_HostReadHasNoSideEffect :
    State.reset.busy = false ∧ (busyWith 0x01).busy = true ∧ supportedAccess 0x7FE 16 = true ∧
    supportedAccess 0x05C 32 = true ∧ regAt 0x05C = some (.operand .seg3Len) := by decide

/-- An access of each unsupported kind, at both sides of 0x400; the state may be any. -/
theorem witness_UnsupportedAccessIsRefused :
    (0x3FC < 0x400 ∧ (16 ≠ 32 ∨ 0x3FC % 4 ≠ 0)) ∧ (0x3FE < 0x400 ∧ (32 ≠ 32 ∨ 0x3FE % 4 ≠ 0)) ∧
    (64 ≠ 8 ∧ 64 ≠ 16 ∧ 64 ≠ 32) ∧ (16 = 16 ∧ 0x401 % 2 ≠ 0) ∧ (32 = 32 ∧ 0x402 % 4 ≠ 0) := by decide

/-- The first address past the window, and the window's last. -/
theorem witness_WindowBoundsHostAccesses :
    (∃ addr, Config.engineBase + 0x800 ≤ addr) ∧ (∃ addr, 0x7FF < 0x800 ∧ addr = Config.engineBase + 0x7FF) :=
  ⟨⟨_, le_refl _⟩, ⟨_, by decide, rfl⟩⟩

/-- A busy state whose engine turn answers, lost writes of a register and of BUF, an idle state, and a word with GO. -/
theorem witness_InterruptFollowsItsFourBits :
    (busyWith 0x01).busy = true ∧ (∃ t, engineTurn (busyWith 0x01) = .next t) ∧ supportedAccess 0x004 32 = true ∧
    supportedAccess 0x7FF 8 = true ∧ State.reset.busy = false ∧ (0x80000001#32).getLsbD 31 = true :=
  ⟨rfl, ⟨_, rfl⟩, by decide, by decide, rfl, by decide⟩

theorem witness_ResetInputRestoresTheResetValues :
    { busyWith 0x01 with schedule := [.resetInput, .engine] }.schedule = .resetInput :: [.engine] := rfl

/-- Key, block and output at the last offset that fits. -/
theorem witness_AesEcbWritesTheCipherBlock :
    ∃ s : State, ∃ p, s.pending = some p ∧ Fits s.cfg p.regs.keyOff.toNat 16 ∧ Fits s.cfg p.regs.msgOff.toNat 16 ∧
      Fits s.cfg p.regs.outOff.toNat 16 :=
  ⟨running 0x01 { OperandRegs.zero with keyOff := 1008, msgOff := 1008, outOff := 1008 } zeroBuf, _, rfl, by decide⟩

/-- Both ends of SEGCNT, 0 and 4; an empty segment may stand past BUF. -/
theorem witness_CmacWritesTheTagOfItsSegments :
    ∃ s : State, ∃ p, s.pending = some p ∧ Fits s.cfg p.regs.keyOff.toNat 16 ∧ Fits s.cfg p.regs.outOff.toNat 16 ∧
      (∀ g ∈ [p.regs.seg0, p.regs.seg1, p.regs.seg2, p.regs.seg3].take 4, Fits s.cfg g.off.toNat g.len.toNat) ∧
      (∀ g ∈ [p.regs.seg0, p.regs.seg1, p.regs.seg2, p.regs.seg3].take 0, Fits s.cfg g.off.toNat g.len.toNat) :=
  ⟨running 0x00080002 { OperandRegs.zero with seg0 := ⟨0xFFFF, 0⟩, seg1 := ⟨0, 1024⟩, seg2 := ⟨1023, 1⟩ } zeroBuf, _, rfl,
    by decide⟩

theorem witness_S1WritesTheSaltOfItsLabel :
    ∃ s : State, ∃ p, s.pending = some p ∧ Fits s.cfg p.regs.seg0.off.toNat p.regs.seg0.len.toNat ∧
      Fits s.cfg p.regs.outOff.toNat 16 :=
  ⟨running 0x03 { OperandRegs.zero with seg0 := ⟨0, 1024⟩, outOff := 1008 } zeroBuf, _, rfl, by decide⟩

theorem witness_K1WritesTheTwoStageTag :
    ∃ s : State, ∃ p, s.pending = some p ∧ Fits s.cfg p.regs.keyOff.toNat 16 ∧
      Fits s.cfg p.regs.seg0.off.toNat p.regs.seg0.len.toNat ∧ Fits s.cfg p.regs.seg1.off.toNat p.regs.seg1.len.toNat ∧
      Fits s.cfg p.regs.outOff.toNat 16 :=
  ⟨running 0x04 { OperandRegs.zero with seg0 := ⟨0xFFFF, 0⟩, seg1 := ⟨1008, 16⟩, outOff := 1008 } zeroBuf, _, rfl,
    by decide⟩

/-- K2, with its 33 output bytes at the end of BUF. -/
theorem witness_K2WritesNidAndTwoKeys :
    ∃ s : State, ∃ p, s.pending = some p ∧ Fits s.cfg p.regs.keyOff.toNat 16 ∧
      Fits s.cfg p.regs.seg0.off.toNat p.regs.seg0.len.toNat ∧ Fits s.cfg p.regs.outOff.toNat 33 :=
  ⟨running 0x05 { OperandRegs.zero with seg0 := ⟨1023, 1⟩, outOff := 991 } zeroBuf, _, rfl, by decide⟩

theorem witness_K3WritesTheLastEightBytes :
    ∃ s : State, ∃ p, s.pending = some p ∧ Fits s.cfg p.regs.keyOff.toNat 16 ∧ Fits s.cfg p.regs.outOff.toNat 8 :=
  ⟨running 0x06 { OperandRegs.zero with keyOff := 1008, outOff := 1016 } zeroBuf, _, rfl, by decide⟩

theorem witness_K4WritesTheMaskedLastByte :
    ∃ s : State, ∃ p, s.pending = some p ∧ Fits s.cfg p.regs.keyOff.toNat 16 ∧ Fits s.cfg p.regs.outOff.toNat 1 :=
  ⟨running 0x07 { OperandRegs.zero with keyOff := 1008, outOff := 1023 } zeroBuf, _, rfl, by decide⟩

theorem witness_Id128WritesTheDerivedKey :
    ∃ s : State, ∃ p, s.pending = some p ∧ Fits s.cfg p.regs.keyOff.toNat 16 ∧
      Fits s.cfg p.regs.seg0.off.toNat p.regs.seg0.len.toNat ∧ Fits s.cfg p.regs.outOff.toNat 16 :=
  ⟨running 0x08 { OperandRegs.zero with seg0 := ⟨0xFFFF, 0⟩, outOff := 1008 } zeroBuf, _, rfl, by decide⟩

/-- Message and MIC fill BUF to its end, with both MIC sizes. -/
theorem witness_CcmEncWritesCiphertextAndMic :
    ∃ s : State, ∃ p, s.pending = some p ∧ p.regs.aadLen.toNat < 0xFF00 ∧ Fits s.cfg p.regs.keyOff.toNat 16 ∧
      Fits s.cfg p.regs.nonceOff.toNat 13 ∧ Fits s.cfg p.regs.aadOff.toNat p.regs.aadLen.toNat ∧
      Fits s.cfg p.regs.msgOff.toNat p.regs.msgLen.toNat ∧
      (∀ m, m = 4 ∨ m = 8 → Fits s.cfg p.regs.outOff.toNat (p.regs.msgLen.toNat + m)) :=
  ⟨running 0x0809
    { OperandRegs.zero with nonceOff := 1011, aadOff := 0xFFFF, msgOff := 992, msgLen := 32, outOff := 984 } zeroBuf,
    _, rfl, by decide, by decide, by decide, by decide, by decide, by
      intro m hm
      rcases hm with rfl | rfl <;> decide⟩

/-- An empty message and AAD under the zero key and nonce, the MIC at offset 16 (95 program P6 gives the MIC
b3c06721). -/
def decState (mic : Nat) : State :=
  running 0x040A { OperandRegs.zero with aadOff := 0xFFFF, msgOff := 16, outOff := 1024 }
    (Buffer 0 (zeros 16 ++ hex 4 mic))

/-- The hypotheses of CcmDecVerifiesAndDecrypts but the comparison, with MIC size 4. -/
def DecFits (s : State) (p : Snapshot) : Prop :=
  s.pending = some p ∧ p.regs.aadLen.toNat < 0xFF00 ∧ Fits s.cfg p.regs.keyOff.toNat 16 ∧
    Fits s.cfg p.regs.nonceOff.toNat 13 ∧ Fits s.cfg p.regs.aadOff.toNat p.regs.aadLen.toNat ∧
    Fits s.cfg p.regs.msgOff.toNat (p.regs.msgLen.toNat + 4) ∧ Fits s.cfg p.regs.outOff.toNat p.regs.msgLen.toNat

/-- The MIC the snapshot's operands give. -/
def expectedMic (p : Snapshot) : Bytes :=
  ccmMic (p.buf.read p.regs.keyOff.toNat 16) (p.buf.read p.regs.nonceOff.toNat 13)
    (p.buf.read p.regs.aadOff.toNat p.regs.aadLen.toNat)
    (ccmCtr (p.buf.read p.regs.keyOff.toNat 16) (p.buf.read p.regs.nonceOff.toNat 13)
      (p.buf.read p.regs.msgOff.toNat p.regs.msgLen.toNat)) 4

/-- Both clauses: the MIC that matches, and one with a bit flipped. -/
theorem witness_CcmDecVerifiesAndDecrypts :
    (∃ p, DecFits (decState 0xb3c06721) p ∧
      expectedMic p = p.buf.read (p.regs.msgOff.toNat + p.regs.msgLen.toNat) 4) ∧
    (∃ p, DecFits (decState 0xb3c06720) p ∧
      expectedMic p ≠ p.buf.read (p.regs.msgOff.toNat + p.regs.msgLen.toNat) 4) :=
  ⟨⟨_, ⟨rfl, by decide⟩, by decide +kernel⟩, ⟨_, ⟨rfl, by decide⟩, by decide +kernel⟩⟩

/-- The clauses at their ends: MICSZ 17, MICSZ 16 and 0, and AAD_LEN = 0xFF00 with MICSZ 4. -/
theorem witness_CcmChecksItsParametersInOrder :
    ∃ s : State, ∃ p, s.pending = some p ∧ 16 < 17 ∧ (16 ≤ 16 ∧ 16 ≠ 4 ∧ 16 ≠ 8) ∧ (0 ≤ 16 ∧ 0 ≠ 4 ∧ 0 ≠ 8) ∧
      ((4 = 4 ∨ 4 = 8) ∧ 0xFF00 ≤ p.regs.aadLen.toNat) :=
  ⟨running 0x0409 { OperandRegs.zero with aadLen := 0xFF00 } zeroBuf, _, rfl, by decide⟩

theorem witness_NonceNetBuildsTheNetworkNonce :
    ∃ s : State, ∃ p, s.pending = some p ∧ Fits s.cfg p.regs.msgOff.toNat 7 ∧ Fits s.cfg p.regs.outOff.toNat 13 :=
  ⟨running 0x0B { OperandRegs.zero with msgOff := 1017, outOff := 1011 } zeroBuf, _, rfl, by decide⟩

/-- Each of the three configurations. -/
theorem witness_NonceProxyFollowsItsParameters :
    ∀ c ∈ [Config.mk 1024 true false, ⟨1024, true, true⟩, ⟨1024, false, true⟩], ∃ s : State, ∃ p, s.cfg = c ∧
      s.pending = some p ∧ Fits s.cfg p.regs.msgOff.toNat 7 ∧ Fits s.cfg p.regs.outOff.toNat 13 := by
  intro c hc
  refine ⟨{ running 0x0C { OperandRegs.zero with msgOff := 1017, outOff := 1011 } zeroBuf with cfg := c }, _, rfl, rfl, ?_⟩
  revert c
  decide

theorem witness_NonceAppAndDevBuildTheApplicationNonces :
    ∃ s : State, ∃ p, s.pending = some p ∧ Fits s.cfg p.regs.outOff.toNat 13 :=
  ⟨running 0x0001000D { OperandRegs.zero with seq := 0xFFFFFFFF, outOff := 0x3F3 } zeroBuf, _, rfl, by decide⟩

/-- Both clauses: a snapshot that fails its last check, and one that fails none. -/
theorem witness_EngineReportsTheFirstFailedCheck :
    (∃ s : State, ∃ p, s.pending = some p ∧ firstFailure s.cfg p = some .range) ∧
    (∃ s : State, ∃ p, s.pending = some p ∧ firstFailure s.cfg p = none) :=
  ⟨⟨running 0x01 { OperandRegs.zero with outOff := 1009 } zeroBuf, _, rfl, by decide⟩,
    ⟨running 0x01 { OperandRegs.zero with outOff := 1008 } zeroBuf, _, rfl, by decide⟩⟩

/-- A command that ends with InvalidParameters. -/
theorem witness_EveryCommandChangesOnlyStatusAndItsOutput :
    ∃ t, exec (.cmac 5) (busyWith 0x000A0002) = .next t ∧ t.errCode = .invalidParameters := ⟨_, rfl, rfl⟩

/-- A CCM_DEC that ends with AuthenticationFailed, and a command that ends with InvalidParameters. -/
theorem witness_ErrorCodesBelongToTheirCommands :
    (∃ t, exec (.ccmDec 4) (decState 0xb3c06720) = .next t ∧ t.errCode = .authenticationFailed) ∧
    (∃ t, exec (.cmac 5) (busyWith 0x000A0002) = .next t ∧ t.errDetail = .segcnt) :=
  ⟨⟨_, rfl, by decide +kernel⟩, ⟨_, rfl, rfl⟩⟩

theorem witness_CryptoEngineFailureIsNeverRaised :
    (busyWith 0x01).errCode ≠ .cryptoEngineFailure ∧ ∃ t, step (busyWith 0x01) = .next t := ⟨by decide, ⟨_, rfl⟩⟩

/-- Two AES_ECB snapshots that differ in a register AES_ECB does not read and in a byte it does not read. -/
theorem witness_ResultDependsOnlyOnItsOperands :
    ∃ s t s' t' : State, ∃ p q : Snapshot, s.pending = some p ∧ t.pending = some q ∧ s.cfg = t.cfg ∧
      (∀ r ∈ operandsRead .aesEcb, p.regs.read r = q.regs.read r) ∧
      (∀ g ∈ regionsRead p.regs .aesEcb, ∀ k, g.off ≤ k → k < g.off + g.len → p.buf.get k = q.buf.get k) ∧
      exec .aesEcb s = .next s' ∧ exec .aesEcb t = .next t' ∧ s'.errCode = .ok ∧ p ≠ q := by
  refine ⟨running 0x01 { OperandRegs.zero with outOff := 32 } zeroBuf,
    running 0x01 { OperandRegs.zero with outOff := 32, msgLen := 0xFFFF } (zeroBuf.set 16 1), _, _, _, _, rfl, rfl, rfl,
    by decide, ?_, rfl, rfl, rfl, by decide⟩
  intro g hg k _ hk
  have h16 : ∀ g ∈ regionsRead { OperandRegs.zero with outOff := 32 } .aesEcb, g.off + g.len ≤ 16 := by decide
  have := h16 g hg
  exact (Buf.get_set_other _ _ (by omega)).symm

/-- A host write that starts a command, and an engine turn that completes one. -/
theorem witness_BusyChangesOnlyByStartCompletionOrReset :
    (∃ s t : State, step s = .next t ∧ s.busy = false ∧ t.busy = true) ∧
    (∃ s t : State, step s = .next t ∧ s.busy = true ∧ t.busy = false) := by
  refine ⟨⟨{ State.reset with schedule := [.host (regWrite .cmd 0x80000001#32)] },
    State.reset.startCommand 1, ?_, rfl, rfl⟩, ⟨busyWith 0x01, _, rfl, rfl, rfl⟩⟩
  show hostAccess State.reset (regWrite .cmd 0x80000001#32) = _
  simp only [hostAccess, regWrite]
  rw [windowOffset_base _ (by decide)]
  rfl

/-- A busy state and a host write that is lost. -/
theorem witness_HostCannotDisturbAPendingCommand :
    (busyWith 0x01).busy = true ∧ ∃ t, hostAccess (busyWith 0x01) (regWrite (.operand .keyOff) 5) = .next t := by
  refine ⟨rfl, { busyWith 0x01 with busyErr := true }, ?_⟩
  simp only [hostAccess, regWrite]
  rw [windowOffset_base _ (by decide)]
  exact busWrite_busy (by decide) rfl (by decide)

theorem witness_EngineTurnCompletesThePendingCommand : ∃ p, (busyWith 0x0F).pending = some p := ⟨_, rfl⟩

/-- A write, a reset and an engine turn, all supported. -/
theorem witness_EveryFiniteScheduleEndsIdle :
    ∀ u ∈ [Turn.host (regWrite .cmd 0x80000001#32), .resetInput, .engine], TurnSupported u := by
  intro u hu
  simp only [List.mem_cons, List.not_mem_nil, or_false] at hu
  rcases hu with rfl | rfl | rfl
  · exact ⟨0x004, windowOffset_base _ (by decide), by decide⟩
  · trivial
  · trivial

/-- The invariant holds of a busy state that has a next state. -/
theorem witness_EveryStepKeepsTheInvariant : Inv (busyWith 0x01) ∧ ∃ t, step (busyWith 0x01) = .next t := by
  refine ⟨⟨by decide, by decide, by decide, by decide, by decide, ?_, ?_⟩, ⟨_, rfl⟩⟩
  · intro p hp
    cases hp
    rfl
  · intro p hp
    cases hp
    exact ⟨rfl, rfl⟩

/-- The same two bytes written in both orders. -/
theorem witness_BuffersListingTheSameBytesAreEqual :
    ((Buffer 0 [1]).set 5 2).wf 1024 = true ∧ ((Buffer 5 [2]).set 0 1).wf 1024 = true ∧
    ((Buffer 0 [1]).set 5 2).draw = ((Buffer 5 [2]).set 0 1).draw ∧
    (∀ k, cellAt ((Buffer 0 [1]).set 5 2).cells k = cellAt ((Buffer 5 [2]).set 0 1).cells k) :=
  ⟨by decide, by decide, rfl, fun _ => rfl⟩

theorem witness_CcmDecryptOfEncryptIsThePlaintext : (4 = 4 ∨ 4 = 8) ∧ (8 = 4 ∨ 8 = 8) := by decide

/-- One byte encrypted to offset 32, then the CCM_DEC of it, to offset 40; with an AAD of one byte at offset 0, and with an
empty one at an offset strictly inside the output. -/
theorem witness_CcmDecAfterCcmEncRestoresThePlaintext :
    ∀ aad ∈ [((0 : Half), (1 : Half)), (34, 0)],
    ∃ s t u : State, ∃ p q : Snapshot, s.pending = some p ∧ p.buf = s.buf ∧ exec (.ccmEnc 4) s = .next t ∧ t.errCode = .ok ∧
      Apart p.regs.outOff.toNat (p.regs.msgLen.toNat + 4) p.regs.keyOff.toNat 16 ∧
      Apart p.regs.outOff.toNat (p.regs.msgLen.toNat + 4) p.regs.nonceOff.toNat 13 ∧
      (p.regs.aadLen = 0 ∨
        Apart p.regs.outOff.toNat (p.regs.msgLen.toNat + 4) p.regs.aadOff.toNat p.regs.aadLen.toNat) ∧
      u.pending = some q ∧ u.cfg = s.cfg ∧ q.buf = t.buf ∧
      q.regs = { p.regs with msgOff := p.regs.outOff, outOff := q.regs.outOff } ∧
      Fits u.cfg q.regs.outOff.toNat p.regs.msgLen.toNat ∧ (p.regs.aadOff, p.regs.aadLen) = aad := by
  intro aad haad
  simp only [List.mem_cons, List.not_mem_nil, or_false] at haad
  rcases haad with rfl | rfl
  · exact ⟨running 0x0409 { OperandRegs.zero with aadLen := 1, msgLen := 1, outOff := 32 } zeroBuf, _,
      running 0x040A { OperandRegs.zero with aadLen := 1, msgLen := 1, msgOff := 32, outOff := 40 } _, _, _,
      rfl, rfl, rfl, rfl, by decide, by decide, by decide, rfl, rfl, rfl, rfl, by decide, rfl⟩
  · exact ⟨running 0x0409 { OperandRegs.zero with aadOff := 34, msgLen := 1, outOff := 32 } zeroBuf, _,
      running 0x040A { OperandRegs.zero with aadOff := 34, msgLen := 1, msgOff := 32, outOff := 40 } _, _, _,
      rfl, rfl, rfl, rfl, by decide, by decide, by decide, rfl, rfl, rfl, rfl, by decide, rfl⟩

/-- Two bytes as one segment and as two. -/
theorem witness_CmacIgnoresHowTheMessageIsSplit :
    ∃ s t s' t' : State, ∃ p q : Snapshot, s.pending = some p ∧ t.pending = some q ∧
      p.buf.read p.regs.keyOff.toNat 16 = q.buf.read q.regs.keyOff.toNat 16 ∧
      (([p.regs.seg0, p.regs.seg1, p.regs.seg2, p.regs.seg3].take 1).flatMap fun g => p.buf.read g.off.toNat g.len.toNat) =
        (([q.regs.seg0, q.regs.seg1, q.regs.seg2, q.regs.seg3].take 2).flatMap fun g =>
          q.buf.read g.off.toNat g.len.toNat) ∧
      exec (.cmac 1) s = .next s' ∧ exec (.cmac 2) t = .next t' ∧ s'.errCode = .ok ∧ t'.errCode = .ok :=
  ⟨running 0x00020002 { OperandRegs.zero with seg0 := ⟨16, 2⟩ } zeroBuf,
    running 0x00040002 { OperandRegs.zero with seg0 := ⟨16, 1⟩, seg1 := ⟨17, 1⟩ } zeroBuf, _, _, _, _, rfl, rfl, rfl, by decide,
    rfl, rfl, rfl, rfl⟩

end Sys2Proof.Tests
end

/-! # The state family (10_state.md): registers and flags through the bus, the reset state, BUF as data -/

/-! ## Rules: registers, byte order and BUF -/

namespace Sys2Proof.Machine

/-! ### Registers through the bus -/

/-- A 32-bit read of a register answers the register, busy or not (20_memory.md R69). -/
theorem busRead_reg (s : State) (r : Reg) :
    busRead s r.offset 32 = .next { s with readData := some (s.readReg r) } := by
  simp only [busRead, r.offset_supported, r.offset_lt, if_true, State.readRegOffset, regAt_offset]

/-- An idle 32-bit write of a register is the register's write (10_state.md R23). -/
theorem busWrite_reg_idle {s : State} (r : Reg) (v : Word) (h : s.busy = false) :
    busWrite s r.offset 32 v = .next (s.writeReg r v) := by
  simp only [busWrite_idle r.offset_supported h, if_pos r.offset_lt, State.writeRegOffset, regAt_offset]

/-- A supported write that an idle engine ignores sets BUSYERR while busy and nothing else (20_memory.md R68). -/
theorem busWrite_ignored {s : State} {off bits : Nat} {v : Word} (hs : supportedAccess off bits = true)
    (hne : off ≠ Reg.status.offset) (hidle : s.busy = false → busWrite s off bits v = .next s) :
    busWrite s off bits v = .next (if s.busy then { s with busyErr := true } else s) := by
  cases hb : s.busy with
  | true => exact busWrite_busy hs hb hne
  | false => exact hidle hb

/-- No register stands at a reserved offset (10_state.md R22). -/
theorem Reg.offset_not_reserved (r : Reg) : r.offset < 0x060 ∧ r.offset ≠ 0x038 ∧ r.offset ≠ 0x03C := by
  cases r with
  | operand r => cases r <;> decide
  | _ => decide

theorem regAt_reserved {off : Nat} (h : off = 0x038 ∨ off = 0x03C ∨ 0x060 ≤ off) : regAt off = none := by
  cases hr : regAt off with
  | none => rfl
  | some r =>
    have heq := regAt_some hr
    have hmap := r.offset_not_reserved
    omega

/-- A reserved offset below BUF reads 0, busy or not (10_state.md R41). -/
theorem busRead_reserved {s : State} {off width : Nat} (hs : supportedAccess off width = true)
    (hlow : off < Config.bufBase) (hnone : regAt off = none) :
    busRead s off width = .next { s with readData := some 0 } := by
  simp only [busRead, hs, hlow, if_true, State.readRegOffset, hnone]

/-- An idle write of a reserved offset below BUF changes nothing (10_state.md R41). -/
theorem busWrite_reserved_idle {s : State} {off width : Nat} {v : Word} (hs : supportedAccess off width = true)
    (hlow : off < Config.bufBase) (hnone : regAt off = none) (hidle : s.busy = false) :
    busWrite s off width v = .next s := by
  simp only [busWrite_idle hs hidle, hlow, if_true, State.writeRegOffset, hnone]

/-! ### The words of STATUS and IRQ_EN -/

theorem errCodeNum_lt (e : ErrCode) : errCodeNum e < 16 := by cases e <;> decide

theorem errDetailNum_lt (d : ErrDetail) : errDetailNum d < 256 := by cases d <;> decide

/-- The fields of STATUS do not overlap, so its word is their sum (10_state.md R26). -/
theorem State.statusWord_toNat (s : State) : s.statusWord.toNat =
    s.busy.toNat + 2 * s.done.toNat + 4 * s.busyErr.toNat + 16 * errCodeNum s.errCode
      + 256 * errDetailNum s.errDetail := by
  have := s.busy.toNat_lt
  have := s.done.toNat_lt
  have := s.busyErr.toNat_lt
  have := errCodeNum_lt s.errCode
  have := errDetailNum_lt s.errDetail
  rw [State.statusWord, BitVec.toNat_ofNat]
  omega

theorem State.irqEnWord_toNat (s : State) : s.irqEnWord.toNat = s.doneIe.toNat + 2 * s.busyErrIe.toNat := by
  have := s.doneIe.toNat_lt
  have := s.busyErrIe.toNat_lt
  rw [State.irqEnWord, BitVec.toNat_ofNat]
  omega

/-- Each field of STATUS stands at its bits (10_state.md R26 to R31). -/
theorem State.statusWord_bits (s : State) :
    bits s.statusWord 0 0 = s.busy.toNat ∧ bits s.statusWord 1 1 = s.done.toNat ∧
    bits s.statusWord 2 2 = s.busyErr.toNat ∧ bits s.statusWord 3 3 = 0 ∧
    bits s.statusWord 7 4 = errCodeNum s.errCode ∧ bits s.statusWord 15 8 = errDetailNum s.errDetail ∧
    bits s.statusWord 31 16 = 0 := by
  have := s.busy.toNat_lt
  have := s.done.toNat_lt
  have := s.busyErr.toNat_lt
  have := errCodeNum_lt s.errCode
  have := errDetailNum_lt s.errDetail
  simp only [bits, s.statusWord_toNat]
  omega

theorem State.irqEnWord_bits (s : State) :
    bits s.irqEnWord 0 0 = s.doneIe.toNat ∧ bits s.irqEnWord 1 1 = s.busyErrIe.toNat ∧
    bits s.irqEnWord 31 2 = 0 := by
  have := s.doneIe.toNat_lt
  have := s.busyErrIe.toNat_lt
  simp only [bits, s.irqEnWord_toNat]
  omega

/-! ### What an operand register stores -/

theorem setWidth_half_setWidth (v : Word) : (v.setWidth 16).setWidth 32 = v &&& 0x0000FFFF#32 := by
  apply BitVec.eq_of_toNat_eq
  have hmod : v.toNat &&& 0xFFFF = v.toNat % 2 ^ 16 := Nat.and_two_pow_sub_one_eq_mod v.toNat 16
  simp only [BitVec.toNat_setWidth, BitVec.toNat_and, BitVec.toNat_ofNat, Nat.reducePow, Nat.reduceMod, hmod]
  omega

/-- IV_INDEX, SEQ and ADDR store all 32 bits, an offset or a length its low 16 (10_state.md R34 to R39). -/
theorem OperandRegs.read_write_same (g : OperandRegs) (r : OpReg) (v : Word) :
    (g.write r v).read r = if r = .ivIndex ∨ r = .seq ∨ r = .addr then v else v &&& 0x0000FFFF#32 := by
  cases r with
  | ivIndex | seq | addr => rfl
  | _ => exact setWidth_half_setWidth v

/-! ### Little-endian words (20_memory.md R65) -/

/-- Byte `j` of the word a byte string stands for; the bytes past its end are 0. -/
theorem leWord_byte (bs : Bytes) {j : Nat} (hj : j < 4) : (leWord bs >>> (8 * j)).setWidth 8 = byteAt bs j := by
  induction bs generalizing j with
  | nil => simp [leWord, byteAt]
  | cons b bs ih =>
    cases j with
    | zero =>
      ext i hi
      simp [leWord, byteAt]
    | succ j =>
      have htail : ((leWord (b :: bs)) >>> (8 * (j + 1))).setWidth 8 = (leWord bs >>> (8 * j)).setWidth 8 := by
        ext i hi
        have hfits : 8 * (j + 1) + i < 32 := by omega
        have hpast : ¬ 8 * (j + 1) + i < 8 := by omega
        have hshift : 8 * (j + 1) + i - 8 = 8 * j + i := by omega
        have hhead : b.getLsbD (8 * (j + 1) + i) = false := BitVec.getLsbD_of_ge b _ (by omega)
        simp [leWord, hfits, hpast, hshift, hhead, BitVec.getLsbD_eq_getElem (show 8 * j + i < 32 by omega)]
      rw [htail, ih (by omega)]
      rfl

theorem leWord_eq_zero {bs : Bytes} (h : ∀ b ∈ bs, b = 0) : leWord bs = 0 := by
  induction bs with
  | nil => rfl
  | cons b bs ih =>
    rw [List.forall_mem_cons] at h
    simp [leWord, h.1, ih h.2]

@[simp] theorem leBytes_length (n : Nat) (v : Word) : (leBytes n v).length = n := by simp [leBytes]

theorem byteAt_leBytes {n i : Nat} (v : Word) (h : i < n) : byteAt (leBytes n v) i = (v >>> (8 * i)).setWidth 8 := by
  simp [byteAt, leBytes, h]

/-! ### BUF through the bus -/

theorem State.readBufByte_idle {s : State} (h : s.busy = false) (k : Nat) :
    s.readBufByte k = if k < s.cfg.bufSize then s.buf.get k else 0 := by
  simp [State.readBufByte, h]

/-- A read past BUF_SIZE gives 0, busy or not (10_state.md R41; log 11). -/
theorem State.readBufWord_past_end {s : State} {k : Nat} (n : Nat) (h : s.cfg.bufSize ≤ k) :
    s.readBufWord k n = 0 := by
  refine leWord_eq_zero fun b hb => ?_
  obtain ⟨i, -, rfl⟩ := List.mem_map.mp hb
  exact if_neg (by omega)

/-- Byte `j` of a BUF read of `n` bytes; the bytes past its width are 0. -/
theorem State.readBufWord_byte (s : State) (k n : Nat) {j : Nat} (hj : j < 4) :
    (s.readBufWord k n >>> (8 * j)).setWidth 8 = if j < n then s.readBufByte (k + j) else 0 := by
  rw [State.readBufWord, leWord_byte _ hj, byteAt]
  split <;> simp [*]

/-- A write past BUF_SIZE stores nothing (10_state.md R41; log 10). -/
theorem Buf.hostWrite_past_end {size : Nat} (b : Buf) {k : Nat} (bs : Bytes) (h : size ≤ k) :
    b.hostWrite size k bs = b := by
  induction bs generalizing k with
  | nil => rfl
  | cons v vs ih => rw [Buf.hostWrite, if_neg (by omega), ih (by omega)]

/-- A bus write stores the bytes it covers below BUF_SIZE and no other (10_state.md R41; log 10). -/
theorem Buf.get_hostWrite (size : Nat) (b : Buf) (k : Nat) (bs : Bytes) (j : Nat) :
    (b.hostWrite size k bs).get j =
      if k ≤ j ∧ j < k + bs.length ∧ j < size then byteAt bs (j - k) else b.get j := by
  induction bs generalizing b k with
  | nil => rw [Buf.hostWrite, if_neg (by simp only [List.length_nil]; omega)]
  | cons v vs ih =>
    rw [Buf.hostWrite, ih, List.length_cons]
    by_cases hjk : j = k
    · subst hjk
      by_cases hin : j < size <;> simp [hin, byteAt]
    · have hhead : (if k < size then b.set k v else b).get j = b.get j := by
        split
        · exact b.get_set_other v (Ne.symm hjk)
        · rfl
      rw [hhead]
      by_cases hcov : k < j ∧ j < k + 1 + vs.length ∧ j < size
      · obtain ⟨d, rfl⟩ := Nat.exists_eq_add_of_lt hcov.1
        rw [if_pos (by omega), if_pos (by omega), show k + d + 1 - (k + 1) = d by omega,
          show k + d + 1 - k = d + 1 by omega, byteAt, byteAt, List.getD_cons_succ]
      · rw [if_neg (by omega), if_neg (by omega)]

/-- A BUF read past BUF_SIZE answers 0, busy or not (10_state.md R41; log 11). -/
theorem busRead_past_end {s : State} {off width : Nat} (hs : supportedAccess off width = true)
    (hbuf : ¬ off < Config.bufBase) (hpast : s.cfg.bufSize ≤ off - Config.bufBase) :
    ∃ t, busRead s off width = .next t ∧ t.readData = some 0 := by
  simp only [busRead, hs, hbuf, if_true, if_false, State.readBufWord_past_end _ hpast]
  exact ⟨_, rfl, rfl⟩

/-- An idle BUF write past BUF_SIZE changes nothing (10_state.md R41; log 10). -/
theorem busWrite_past_end_idle {s : State} {off width : Nat} {v : Word} (hs : supportedAccess off width = true)
    (hbuf : ¬ off < Config.bufBase) (hpast : s.cfg.bufSize ≤ off - Config.bufBase) (hidle : s.busy = false) :
    busWrite s off width v = .next s := by
  simp only [busWrite_idle hs hidle, hbuf, if_false, Buf.hostWrite_past_end _ _ hpast]

/-- An idle BUF read answers the bytes it covers. -/
theorem busRead_buf_idle {s : State} {k width : Nat} (hs : supportedAccess (0x400 + k) width = true)
    (hidle : s.busy = false) :
    busRead s (0x400 + k) width = .next { s with readData := some (s.readBufWord k (width / 8)) } := by
  simp [busRead, hs, hidle, Config.bufBase]

/-- An idle BUF write stores the low bytes of the bus word. -/
theorem busWrite_buf_idle {s : State} {k width : Nat} {v : Word} (hs : supportedAccess (0x400 + k) width = true)
    (hidle : s.busy = false) :
    busWrite s (0x400 + k) width v =
      .next { s with buf := s.buf.hostWrite s.cfg.bufSize k (leBytes (width / 8) v) } := by
  simp [busWrite_idle hs hidle, Config.bufBase]

/-! ### Canonical buffers -/

/-- An address at or below the bound of a rising list is not in it. -/
theorem cellAt_of_risingFrom {cs : List Host.Cell} {a k : Nat} (h : risingFrom (some a) cs = true) (hk : k ≤ a) :
    cellAt cs k = none := by
  induction cs generalizing a with
  | nil => rfl
  | cons c cs ih =>
    obtain ⟨a', v⟩ := c
    simp only [risingFrom, Bool.and_eq_true, decide_eq_true_eq] at h
    obtain ⟨hlt, hrest⟩ := h
    rw [cellAt, if_neg (by omega), ih hrest (by omega)]

/-- The tail of a rising list rises from its first address. -/
theorem risingFrom_tail {lo : Option Nat} {a : Nat} {v : Byte} {cs : List Host.Cell}
    (h : risingFrom lo ((a, v) :: cs) = true) : risingFrom (some a) cs = true := by
  simp only [risingFrom, Bool.and_eq_true] at h
  exact h.2

/-- Rising lists that list the same byte at every address are equal: each is read off from its lowest address up. -/
theorem eq_of_cellAt_eq {cs ds : List Host.Cell} {lo hi : Option Nat} (hcs : risingFrom lo cs = true)
    (hds : risingFrom hi ds = true) (h : ∀ k, cellAt cs k = cellAt ds k) : cs = ds := by
  induction cs generalizing ds lo hi with
  | nil =>
    cases ds with
    | nil => rfl
    | cons d ds => simpa [cellAt] using h d.1
  | cons c cs ih =>
    obtain ⟨a, v⟩ := c
    cases ds with
    | nil => simpa [cellAt] using h a
    | cons d ds =>
      obtain ⟨e, w⟩ := d
      have hcs' := risingFrom_tail hcs
      have hds' := risingFrom_tail hds
      have ha := h a
      have he := h e
      rcases Nat.lt_trichotomy a e with hlt | rfl | hgt
      · simp [cellAt, cellAt_of_risingFrom hds' hlt.le, hlt.ne'] at ha
      · obtain rfl : v = w := by simpa [cellAt] using ha
        congr 1
        refine ih hcs' hds' fun k => ?_
        by_cases hk : a = k
        · subst hk
          rw [cellAt_of_risingFrom hcs' le_rfl, cellAt_of_risingFrom hds' le_rfl]
        · simpa [cellAt, hk] using h k
      · simp [cellAt, cellAt_of_risingFrom hcs' hgt.le, hgt.ne'] at he

end Sys2Proof.Machine

/-! ## Noninterference: a command's result and the row of its table (10_state.md R46, 30_encoding.md R98) -/

namespace Sys2Proof.Machine

open Sys2Proof.Safety

/-! ### The regions of the table are those the commands use -/

/-- A read of an offset or a length register gives the number it stores. -/
@[simp] theorem toNat_setWidth_half (v : Half) : (v.setWidth 32).toNat = v.toNat :=
  BitVec.toNat_setWidth_of_le (by decide)

section
variable (p : Snapshot)

@[simp] theorem regionAt_keyOff : regionAt p.regs .keyOff 16 = p.keyRegion := by
  simp only [regionAt, OperandRegs.read, toNat_setWidth_half, Snapshot.keyRegion]

@[simp] theorem regionAt_nonceOff : regionAt p.regs .nonceOff 13 = p.nonceRegion := by
  simp only [regionAt, OperandRegs.read, toNat_setWidth_half, Snapshot.nonceRegion]

@[simp] theorem regionAt_msgOff (n : Nat) : regionAt p.regs .msgOff n = p.msgRegion n := by
  simp only [regionAt, OperandRegs.read, toNat_setWidth_half, Snapshot.msgRegion]

@[simp] theorem regionAt_outOff (n : Nat) : regionAt p.regs .outOff n = p.outRegion n := by
  simp only [regionAt, OperandRegs.read, toNat_setWidth_half, Snapshot.outRegion]

@[simp] theorem regionBy_aad : regionBy p.regs .aadOff .aadLen = p.aadRegion := by
  simp only [regionBy, OperandRegs.read, toNat_setWidth_half, Snapshot.aadRegion]

@[simp] theorem regionBy_seg0 : regionBy p.regs .seg0Off .seg0Len = p.regs.seg0.region := by
  simp only [regionBy, OperandRegs.read, toNat_setWidth_half, Seg.region]

@[simp] theorem regionBy_seg1 : regionBy p.regs .seg1Off .seg1Len = p.regs.seg1.region := by
  simp only [regionBy, OperandRegs.read, toNat_setWidth_half, Seg.region]

theorem regionWritten_eq (i : Instr) : regionWritten p.regs i = p.outRegion (outputLength p.regs i) :=
  regionAt_outOff p _

end

/-- The offset and the length register of each segment descriptor, in order (10_state.md R39). -/
def segPairs : List (OpReg × OpReg) :=
  [(.seg0Off, .seg0Len), (.seg1Off, .seg1Len), (.seg2Off, .seg2Len), (.seg3Off, .seg3Len)]

theorem segOperands_eq (n : Nat) : segOperands n = (segPairs.take n).flatMap fun c => [c.1, c.2] := by
  simp only [segOperands, segPairs, List.flatMap, List.map_take, List.map_cons, List.map_nil]

theorem segRegions_eq_map (p : Snapshot) (n : Nat) :
    p.segRegions n = (segPairs.take n).map fun c => regionBy p.regs c.1 c.2 := by
  simp only [Snapshot.segRegions, OperandRegs.segs, segPairs, List.map_take, List.map_cons, List.map_nil, Seg.region,
    regionBy, OperandRegs.read, toNat_setWidth_half]

theorem regionsRead_cmac (p : Snapshot) (n : Nat) :
    regionsRead p.regs (.cmac n) = p.keyRegion :: p.segRegions n := by
  simp only [regionsRead, regionAt_keyOff, segRegions_eq_map, segPairs, List.map_take, List.map_cons, List.map_nil]

theorem regionsRead_ccmEnc (p : Snapshot) (m : Nat) :
    regionsRead p.regs (.ccmEnc m) = [p.keyRegion, p.nonceRegion, p.aadRegion, p.msgRegion p.msgLen] := by
  simp only [regionsRead, ccmReads, regionAt_keyOff, regionAt_nonceOff, regionBy_aad, regionAt_msgOff,
    outputLength_msgLen]

theorem regionsRead_ccmDec (p : Snapshot) (m : Nat) :
    regionsRead p.regs (.ccmDec m) = [p.keyRegion, p.nonceRegion, p.aadRegion, p.msgRegion (p.msgLen + m)] := by
  simp only [regionsRead, ccmReads, regionAt_keyOff, regionAt_nonceOff, regionBy_aad, regionAt_msgOff,
    outputLength_msgLen]

/-! ### Snapshots that agree on a command's row -/

/-- Two snapshots hold the same in the operand registers and the regions that the row of `i` lists
(30_encoding.md R98). -/
structure AgreeOnRow (i : Instr) (p q : Snapshot) : Prop where
  regs : ∀ r ∈ operandsRead i, p.regs.read r = q.regs.read r
  bytes : ∀ g ∈ regionsRead p.regs i, p.bytes g = q.bytes g

namespace AgreeOnRow

variable {i : Instr} {p q : Snapshot} (h : AgreeOnRow i p q)
include h

theorem regionAt_eq {off : OpReg} (hoff : off ∈ operandsRead i) (n : Nat) :
    regionAt p.regs off n = regionAt q.regs off n := by
  rw [regionAt, regionAt, h.regs off hoff]

theorem regionBy_eq {off len : OpReg} (hoff : off ∈ operandsRead i) (hlen : len ∈ operandsRead i) :
    regionBy p.regs off len = regionBy q.regs off len := by
  rw [regionBy, regionBy, h.regs off hoff, h.regs len hlen]

/-- A listed region that stands at the same place in both holds the same bytes in both. -/
theorem bytes_eq {g g' : Region} (hg : g = g') (hmem : g ∈ regionsRead p.regs i := by simp [regionsRead]) :
    p.bytes g = q.bytes g' :=
  hg ▸ h.bytes g hmem

theorem keyRegion_eq (hmem : .keyOff ∈ operandsRead i := by simp [operandsRead]) : p.keyRegion = q.keyRegion := by
  simpa using h.regionAt_eq hmem 16

theorem nonceRegion_eq (hmem : .nonceOff ∈ operandsRead i) : p.nonceRegion = q.nonceRegion := by
  simpa using h.regionAt_eq hmem 13

theorem msgRegion_eq (n : Nat) (hmem : .msgOff ∈ operandsRead i := by simp [operandsRead]) :
    p.msgRegion n = q.msgRegion n := by
  simpa using h.regionAt_eq hmem n

theorem outRegion_eq (n : Nat) (hmem : .outOff ∈ operandsRead i := by simp [operandsRead]) :
    p.outRegion n = q.outRegion n := by
  simpa using h.regionAt_eq hmem n

theorem aadRegion_eq (hoff : .aadOff ∈ operandsRead i) (hlen : .aadLen ∈ operandsRead i) :
    p.aadRegion = q.aadRegion := by
  simpa using h.regionBy_eq hoff hlen

theorem seg0_eq (hoff : .seg0Off ∈ operandsRead i := by simp [operandsRead])
    (hlen : .seg0Len ∈ operandsRead i := by simp [operandsRead]) : p.regs.seg0.region = q.regs.seg0.region := by
  simpa using h.regionBy_eq hoff hlen

theorem seg1_eq (hoff : .seg1Off ∈ operandsRead i := by simp [operandsRead])
    (hlen : .seg1Len ∈ operandsRead i := by simp [operandsRead]) : p.regs.seg1.region = q.regs.seg1.region := by
  simpa using h.regionBy_eq hoff hlen

theorem msgLen_eq (hmem : .msgLen ∈ operandsRead i) : p.msgLen = q.msgLen := by
  rw [← outputLength_msgLen, ← outputLength_msgLen, h.regs _ hmem]

theorem ivIndex_eq (hmem : .ivIndex ∈ operandsRead i := by simp [operandsRead]) : p.regs.ivIndex = q.regs.ivIndex :=
  h.regs _ hmem

theorem seq_eq (hmem : .seq ∈ operandsRead i) : p.regs.seq = q.regs.seq := h.regs _ hmem

theorem addr_eq (hmem : .addr ∈ operandsRead i) : p.regs.addr = q.regs.addr := h.regs _ hmem

/-- The application nonces take SEQ, ADDR and IV_INDEX and no byte of BUF (45_nonce.md R224). -/
theorem nonceAppl_eq (tag : Byte) (aszmic : Bool)
    (hmem : ∀ r ∈ [.seq, .addr, .ivIndex], r ∈ operandsRead i := by simp [operandsRead]) :
    nonceAppl tag p.regs.seq.toNat p.src p.dst p.regs.ivIndex.toNat aszmic =
      nonceAppl tag q.regs.seq.toNat q.src q.dst q.regs.ivIndex.toNat aszmic := by
  simp only [Snapshot.src, Snapshot.dst, h.seq_eq (hmem _ (by decide)), h.addr_eq (hmem _ (by decide)),
    h.ivIndex_eq (hmem _ (by decide))]

/-- What the two CCM rows have in common: the regions and the length their operands give. -/
theorem ccmRegions_eq (hrow : operandsRead i = ccmOperands) :
    p.keyRegion = q.keyRegion ∧ p.nonceRegion = q.nonceRegion ∧ p.aadRegion = q.aadRegion ∧
    p.msgLen = q.msgLen ∧ (∀ n, p.msgRegion n = q.msgRegion n) ∧ (∀ n, p.outRegion n = q.outRegion n) :=
  have hmem : ∀ r ∈ ccmOperands, r ∈ operandsRead i := fun _ hr => hrow ▸ hr
  ⟨h.keyRegion_eq (hmem _ (by decide)), h.nonceRegion_eq (hmem _ (by decide)),
    h.aadRegion_eq (hmem _ (by decide)) (hmem _ (by decide)), h.msgLen_eq (hmem _ (by decide)),
    fun n => h.msgRegion_eq n (hmem _ (by decide)), fun n => h.outRegion_eq n (hmem _ (by decide))⟩

end AgreeOnRow

/-- CMAC's row lists the descriptors of its first `n` segments and no other. -/
theorem AgreeOnRow.segRegions_eq {n : Nat} {p q : Snapshot} (h : AgreeOnRow (.cmac n) p q) :
    p.segRegions n = q.segRegions n := by
  have hmem : ∀ c ∈ segPairs.take n, ∀ r ∈ [c.1, c.2], r ∈ operandsRead (.cmac n) := fun c hc r hr => by
    have hseg : r ∈ segOperands n := segOperands_eq n ▸ List.mem_flatMap.mpr ⟨c, hc, hr⟩
    simp [operandsRead, hseg]
  rw [segRegions_eq_map, segRegions_eq_map]
  exact List.map_congr_left fun c hc => h.regionBy_eq (hmem c hc c.1 (by simp)) (hmem c hc c.2 (by simp))

/-- The bytes of CMAC's first `n` segments, one string per segment. -/
theorem AgreeOnRow.segBytes_eq {n : Nat} {p q : Snapshot} (h : AgreeOnRow (.cmac n) p q) :
    (p.segRegions n).map p.bytes = (q.segRegions n).map q.bytes := by
  rw [← h.segRegions_eq]
  exact List.map_congr_left fun g hg => h.bytes g (by rw [regionsRead_cmac]; exact List.mem_cons_of_mem _ hg)

/-- CCM_DEC recovers the same plaintext, or finds the same mismatch, from both snapshots. -/
theorem AgreeOnRow.ccmDecResult_eq {m : Nat} {p q : Snapshot} (h : AgreeOnRow (.ccmDec m) p q) :
    ccmDecResult m p = ccmDecResult m q := by
  obtain ⟨hkey, hnonce, haad, hmsgLen, hmsg, -⟩ := h.ccmRegions_eq rfl
  rw [ccmDecResult, ccmDecResult, ← hmsgLen,
    h.bytes_eq hkey (by simp [regionsRead_ccmDec]), h.bytes_eq hnonce (by simp [regionsRead_ccmDec]),
    h.bytes_eq haad (by simp [regionsRead_ccmDec]), h.bytes_eq (hmsg _) (by simp [regionsRead_ccmDec])]

/-! ### Completions with the same result -/

/-- Two completed states show the same codes and, on success, the same bytes in the region `g`. -/
structure SameResult (g : Region) (s t : State) : Prop where
  errCode : s.errCode = t.errCode
  errDetail : s.errDetail = t.errDetail
  output : s.errCode = .ok → ∀ k, g.off ≤ k → k < g.off + g.len → s.buf.get k = t.buf.get k

/-- The checks of 44_ccm.md R200 let only the two MIC sizes pass. -/
theorem micsz_of_ccmCheck {m a : Nat} (h : ccmCheck m a = none) : m = 4 ∨ m = 8 := by
  unfold ccmCheck at h
  split_ifs at h
  omega

namespace SameResult

variable {s t : State} {g : Region}

theorem raiseInvalid (d : ErrDetail) : SameResult g (s.raiseInvalid d) (t.raiseInvalid d) := ⟨rfl, rfl, nofun⟩

theorem raiseAuthenticationFailed (off n off' n' : Nat) :
    SameResult g (s.raiseAuthenticationFailed off n) (t.raiseAuthenticationFailed off' n') := ⟨rfl, rfl, nofun⟩

/-- The same bytes written over the whole region, whatever stood there. -/
theorem succeed {bs : Bytes} (hlen : bs.length = g.len) : SameResult g (s.succeed g.off bs) (t.succeed g.off bs) where
  errCode := rfl
  errDetail := rfl
  output _ k hlo hhi := by
    obtain ⟨i, rfl⟩ := Nat.exists_eq_add_of_le hlo
    have hi : i < bs.length := by omega
    simp only [State.succeed_buf, Buf.get_write_inside _ _ _ _ hi]

/-- The range check is passed by both or failed by both. -/
theorem ifInRange {l l' : List Region} {s' t' : State} (hcfg : s.cfg = t.cfg) (hl : l = l') (h : SameResult g s' t') :
    SameResult g (s.ifInRange l s') (t.ifInRange l' t') := by
  subst hl
  unfold State.ifInRange
  rw [hcfg]
  split
  · exact h
  · exact raiseInvalid .range

/-- The CCM checks end both in the same detail or let both go on, with a MIC of 4 or 8 bytes. -/
theorem ifCcmOk {m a a' : Nat} {s' t' : State} (ha : a = a') (h : m = 4 ∨ m = 8 → SameResult g s' t') :
    SameResult g (s.ifCcmOk m a s') (t.ifCcmOk m a' t') := by
  subst ha
  cases hcheck : ccmCheck m a with
  | some d =>
    simp only [State.ifCcmOk, hcheck]
    exact raiseInvalid d
  | none =>
    simp only [State.ifCcmOk, hcheck]
    exact h (micsz_of_ccmCheck hcheck)

/-- The shape of most commands: check the ranges, then write the output. -/
theorem of_range {i : Instr} {p q : Snapshot} {n : Nat} {l l' : List Region} {bs bs' : Bytes} (hcfg : s.cfg = t.cfg)
    (hn : outputLength p.regs i = n) (hout : p.outRegion n = q.outRegion n) (hl : l = l') (hbs : bs = bs')
    (hlen : bs.length = n) :
    SameResult (regionWritten p.regs i) (s.ifInRange l (s.succeed (p.outRegion n).off bs))
      (t.ifInRange l' (t.succeed (q.outRegion n).off bs')) := by
  subst hbs
  rw [regionWritten_eq, hn, ← hout]
  exact ifInRange hcfg hl (succeed hlen)

end SameResult

/-! ### The commands -/

/-- `i` run on `s` and on `t` ends with the same result in its output region. -/
def EndAlike (i : Instr) (s t : State) : Prop :=
  ∃ s' t', exec i s = .next s' ∧ exec i t = .next t' ∧ SameResult (regionWritten s.snapshot.regs i) s' t'

section
variable {s t : State} (hcfg : s.cfg = t.cfg)
include hcfg

theorem endAlike_aesEcb (h : AgreeOnRow .aesEcb s.snapshot t.snapshot) : EndAlike .aesEcb s t := by
  have hkey := h.keyRegion_eq
  have hmsg := h.msgRegion_eq 16
  have hout := h.outRegion_eq 16
  refine ⟨_, _, rfl, rfl, SameResult.of_range hcfg rfl hout (by rw [hkey, hmsg, hout]) ?_ (aes_length _ _)⟩
  rw [h.bytes_eq hkey, h.bytes_eq hmsg]

theorem endAlike_cmac {n : Nat} (h : AgreeOnRow (.cmac n) s.snapshot t.snapshot) : EndAlike (.cmac n) s t := by
  have hkey := h.keyRegion_eq
  have hout := h.outRegion_eq 16
  refine ⟨_, _, rfl, rfl, ?_⟩
  split
  · exact SameResult.raiseInvalid .segcnt
  · refine SameResult.of_range hcfg rfl hout (by rw [hkey, h.segRegions_eq, hout]) ?_ (cmacSegments_length _ _)
    rw [h.bytes_eq hkey (by simp [regionsRead_cmac]), h.segBytes_eq]

theorem endAlike_s1 (h : AgreeOnRow .s1 s.snapshot t.snapshot) : EndAlike .s1 s t := by
  have hseg0 := h.seg0_eq
  have hout := h.outRegion_eq 16
  refine ⟨_, _, rfl, rfl, SameResult.of_range hcfg rfl hout (by rw [hseg0, hout]) ?_ (s1_length _)⟩
  rw [h.bytes_eq hseg0]

theorem endAlike_k1 (h : AgreeOnRow .k1 s.snapshot t.snapshot) : EndAlike .k1 s t := by
  have hkey := h.keyRegion_eq
  have hseg0 := h.seg0_eq
  have hseg1 := h.seg1_eq
  have hout := h.outRegion_eq 16
  refine ⟨_, _, rfl, rfl,
    SameResult.of_range hcfg rfl hout (by rw [hkey, hseg0, hseg1, hout]) ?_ (k1_length _ _ _)⟩
  rw [h.bytes_eq hkey, h.bytes_eq hseg0, h.bytes_eq hseg1]

theorem endAlike_k2 (h : AgreeOnRow .k2 s.snapshot t.snapshot) : EndAlike .k2 s t := by
  have hkey := h.keyRegion_eq
  have hseg0 := h.seg0_eq
  have hout := h.outRegion_eq 33
  refine ⟨_, _, rfl, rfl, SameResult.of_range hcfg rfl hout (by rw [hkey, hseg0, hout]) ?_ (k2Output_length _ _)⟩
  rw [h.bytes_eq hkey, h.bytes_eq hseg0]

theorem endAlike_k3 (h : AgreeOnRow .k3 s.snapshot t.snapshot) : EndAlike .k3 s t := by
  have hkey := h.keyRegion_eq
  have hout := h.outRegion_eq 8
  refine ⟨_, _, rfl, rfl, SameResult.of_range hcfg rfl hout (by rw [hkey, hout]) ?_ (k3_length _)⟩
  rw [h.bytes_eq hkey]

theorem endAlike_k4 (h : AgreeOnRow .k4 s.snapshot t.snapshot) : EndAlike .k4 s t := by
  have hkey := h.keyRegion_eq
  have hout := h.outRegion_eq 1
  refine ⟨_, _, rfl, rfl, SameResult.of_range hcfg rfl hout (by rw [hkey, hout]) ?_ rfl⟩
  rw [h.bytes_eq hkey]

theorem endAlike_id128 (h : AgreeOnRow .id128 s.snapshot t.snapshot) : EndAlike .id128 s t := by
  have hkey := h.keyRegion_eq
  have hseg0 := h.seg0_eq
  have hout := h.outRegion_eq 16
  refine ⟨_, _, rfl, rfl, SameResult.of_range hcfg rfl hout (by rw [hkey, hseg0, hout]) ?_ (id128_length _ _)⟩
  rw [h.bytes_eq hkey, h.bytes_eq hseg0]

theorem endAlike_nonceNet (h : AgreeOnRow .nonceNet s.snapshot t.snapshot) : EndAlike .nonceNet s t := by
  have hmsg := h.msgRegion_eq 7
  have hout := h.outRegion_eq 13
  refine ⟨_, _, rfl, rfl, SameResult.of_range hcfg rfl hout (by rw [hmsg, hout]) ?_ ?_⟩
  · rw [h.bytes_eq hmsg, h.ivIndex_eq]
  · exact nonceNet_length _ _ (Buf.read_length _ _ _)

theorem endAlike_nonceProxy (h : AgreeOnRow .nonceProxy s.snapshot t.snapshot) : EndAlike .nonceProxy s t := by
  have hmsg := h.msgRegion_eq 7
  have hout := h.outRegion_eq 13
  refine ⟨_, _, rfl, rfl, SameResult.of_range hcfg rfl hout (by rw [hmsg, hout]) ?_ ?_⟩
  · rw [hcfg, h.bytes_eq hmsg, h.ivIndex_eq]
  · exact nonceProxy_length _ _ _ (Buf.read_length _ _ _)

theorem endAlike_nonceApp {a : Bool} (h : AgreeOnRow (.nonceApp a) s.snapshot t.snapshot) :
    EndAlike (.nonceApp a) s t := by
  have hout := h.outRegion_eq 13
  refine ⟨_, _, rfl, rfl, SameResult.of_range hcfg rfl hout (by rw [hout]) ?_ (nonceAppl_length _ _ _ _ _ _)⟩
  exact h.nonceAppl_eq 0x01 a

theorem endAlike_nonceDev {a : Bool} (h : AgreeOnRow (.nonceDev a) s.snapshot t.snapshot) :
    EndAlike (.nonceDev a) s t := by
  have hout := h.outRegion_eq 13
  refine ⟨_, _, rfl, rfl, SameResult.of_range hcfg rfl hout (by rw [hout]) ?_ (nonceAppl_length _ _ _ _ _ _)⟩
  exact h.nonceAppl_eq 0x02 a

theorem endAlike_ccmEnc {m : Nat} (h : AgreeOnRow (.ccmEnc m) s.snapshot t.snapshot) : EndAlike (.ccmEnc m) s t := by
  obtain ⟨hkey, hnonce, haad, hmsgLen, hmsg, hout⟩ := h.ccmRegions_eq rfl
  refine ⟨_, _, rfl, rfl, SameResult.ifCcmOk (by rw [haad]) fun hm => ?_⟩
  rw [← hmsgLen]
  refine SameResult.of_range hcfg (by rw [outputLength, outputLength_msgLen]) (hout _)
    (by rw [hkey, hnonce, haad, hmsg, hout]) ?_ ?_
  · rw [h.bytes_eq hkey (by simp [regionsRead_ccmEnc]), h.bytes_eq hnonce (by simp [regionsRead_ccmEnc]),
      h.bytes_eq haad (by simp [regionsRead_ccmEnc]), h.bytes_eq (hmsg _) (by simp [regionsRead_ccmEnc])]
  · rw [ccmEncrypt_length _ _ _ _ _ (by omega), Snapshot.bytes, Buf.read_length, Snapshot.msgRegion]

theorem endAlike_ccmDec {m : Nat} (h : AgreeOnRow (.ccmDec m) s.snapshot t.snapshot) : EndAlike (.ccmDec m) s t := by
  obtain ⟨hkey, hnonce, haad, hmsgLen, hmsg, hout⟩ := h.ccmRegions_eq rfl
  refine ⟨_, _, rfl, rfl, SameResult.ifCcmOk (by rw [haad]) fun _ => ?_⟩
  refine SameResult.ifInRange hcfg (by rw [hkey, hnonce, haad, hmsgLen, hmsg, hout]) ?_
  rw [regionWritten_eq, outputLength, outputLength_msgLen, ← h.ccmDecResult_eq, ← hmsgLen, ← hout]
  split
  · exact SameResult.succeed (ccmDecResult_length ‹_›)
  · exact SameResult.raiseAuthenticationFailed _ _ _ _

/-- Every command, run on two states whose snapshots agree on its row, ends with the same result. -/
theorem endAlike_of_agreeOnRow {i : Instr} (h : AgreeOnRow i s.snapshot t.snapshot) : EndAlike i s t := by
  cases i with
  | aesEcb => exact endAlike_aesEcb hcfg h
  | cmac n => exact endAlike_cmac hcfg h
  | s1 => exact endAlike_s1 hcfg h
  | k1 => exact endAlike_k1 hcfg h
  | k2 => exact endAlike_k2 hcfg h
  | k3 => exact endAlike_k3 hcfg h
  | k4 => exact endAlike_k4 hcfg h
  | id128 => exact endAlike_id128 hcfg h
  | ccmEnc m => exact endAlike_ccmEnc hcfg h
  | ccmDec m => exact endAlike_ccmDec hcfg h
  | nonceNet => exact endAlike_nonceNet hcfg h
  | nonceProxy => exact endAlike_nonceProxy hcfg h
  | nonceApp a => exact endAlike_nonceApp hcfg h
  | nonceDev a => exact endAlike_nonceDev hcfg h

end

end Sys2Proof.Machine

/-! ## The obligations of the state family -/

namespace Sys2Proof.Machine

open Sys2Proof.Safety

/-- Settles O15: STATUS is written busy or not, and its write is the W1C action. -/
theorem statusWriteClearsOnlyDoneAndBusyErr : Obligations.StatusWriteClearsOnlyDoneAndBusyErr :=
  busWrite_status

/-- Settles O25: every row of the reset table, read off the reset state. -/
theorem resetStateHasTheTableValues : Obligations.ResetStateHasTheTableValues := by
  have hregs : ∀ r, State.reset.regs.read r = 0 := fun r => by cases r <;> rfl
  exact ⟨rfl, rfl, rfl, hregs, rfl, rfl, rfl, rfl⟩

/-- Settles O50: nothing is pending, BUF lists no byte and its draw 0 is below the next, 1. -/
theorem invariantHoldsAtReset : Obligations.InvariantHoldsAtReset where
  legal := by decide
  bufWf := Buf.wf_empty _ _
  freshDraw := Nat.zero_lt_one
  noEngineFailure := nofun
  detailIff := by decide
  snapshotLive := nofun
  busyQuiet := nofun

/-- Settles O16: the two words read are those of the fields, and each code number stands for its code. -/
theorem statusAndIrqEnReadTheirFields : Obligations.StatusAndIrqEnReadTheirFields := by
  intro s
  obtain ⟨hbusy, hdone, hbusyErr, hrsvd, hcode, hdetail, hhigh⟩ := s.statusWord_bits
  obtain ⟨hdoneIe, hbusyErrIe, hrest⟩ := s.irqEnWord_bits
  refine ⟨s.statusWord, s.irqEnWord, busRead_reg s .status, hbusy, hdone, hbusyErr, hrsvd, ?_, ?_, hhigh,
    busRead_reg s .irqEn, hdoneIe, hbusyErrIe, hrest⟩
  · rw [hcode]
    cases s.errCode <;> decide
  · rw [hdetail]
    cases s.errDetail <;> decide

/-- Settles O17: the write and the read both go to the register its offset names. -/
theorem operandRegisterReadsBackItsStoredBits : Obligations.OperandRegisterReadsBackItsStoredBits := by
  intro s r v hidle stored
  have hread := busRead_reg (s.writeReg (.operand r) v) (.operand r)
  have hstored : (s.writeReg (.operand r) v).readReg (.operand r) = stored := s.regs.read_write_same r v
  rw [hstored] at hread
  exact ⟨s.writeReg (.operand r) v, busWrite_reg_idle (.operand r) v hidle, rfl,
    fun q hq => s.regs.read_write_other v hq, hread⟩

/-- Settles O18: no register stands at a reserved offset below BUF, and past BUF_SIZE a read gives 0 in every byte and a
write stores none. -/
theorem idAndReservedOffsetsAreFixed : Obligations.IdAndReservedOffsetsAreFixed := by
  intro s v ignored
  have hident : busWrite s 0x000 32 v = .next ignored :=
    busWrite_ignored rfl (by decide) (busWrite_reg_idle .ident v)
  refine ⟨busRead_reg s .ident, hident, fun off width hs hoff => ?_⟩
  by_cases hlow : off < Config.bufBase
  · have hnone : regAt off = none := regAt_reserved (by simp only [Config.bufBase] at hlow; omega)
    refine ⟨⟨_, busRead_reserved hs hlow hnone, rfl⟩,
      busWrite_ignored hs ?_ (busWrite_reserved_idle hs hlow hnone)⟩
    rintro rfl
    exact absurd hnone (by decide)
  · have hpast : s.cfg.bufSize ≤ off - Config.bufBase := by simp only [Config.bufBase] at hlow ⊢; omega
    refine ⟨busRead_past_end hs hlow hpast, busWrite_ignored hs ?_ (busWrite_past_end_idle hs hlow hpast)⟩
    rintro rfl
    exact hlow (Reg.offset_lt .status)

/-- Settles O20: the read and the write byte by byte, on both sides of BUF_SIZE. -/
theorem bufAccessAcrossTheEndIsBytewise : Obligations.BufAccessAcrossTheEndIsBytewise := by
  intro s k n v hidle hn halign hlo hhi
  have hs : supportedAccess (0x400 + k) (8 * n) = true := by
    rcases hn with rfl | rfl
    · simp [supportedAccess, Config.bufBase]; omega
    · simp [supportedAccess, Config.bufBase]; omega
  have hbytes : 8 * n / 8 = n := Nat.mul_div_cancel_left n (by decide)
  refine ⟨⟨_, busRead_buf_idle hs hidle, fun j hj => ?_⟩, _, busWrite_buf_idle hs hidle, rfl, fun j => ?_⟩
  · rw [hbytes, State.readBufWord_byte s k n hj, State.readBufByte_idle hidle]
    split <;> simp [*]
  · rw [hbytes]
    simp only [Buf.get_hostWrite, leBytes_length]
    by_cases hj : k ≤ j ∧ j < s.cfg.bufSize
    · rw [if_pos (by omega), if_pos hj, byteAt_leBytes v (by omega)]
    · rw [if_neg (by omega), if_neg hj]

/-- Settles O45: the two snapshots agree on the command's row, so the two runs end alike. -/
theorem resultDependsOnlyOnItsOperands : Obligations.ResultDependsOnlyOnItsOperands := by
  intro i s t s' t' p q hp hq hcfg hregs hbytes hs ht
  have hrow : AgreeOnRow i s.snapshot t.snapshot := by
    rw [State.snapshot_of_pending hp, State.snapshot_of_pending hq]
    exact ⟨hregs, fun g hg => Buf.read_congr (hbytes g hg)⟩
  obtain ⟨s₁, t₁, hs₁, ht₁, hsame⟩ := endAlike_of_agreeOnRow hcfg hrow
  obtain rfl : s' = s₁ := Host.Outcome.next.inj (hs ▸ hs₁)
  obtain rfl : t' = t₁ := Host.Outcome.next.inj (ht ▸ ht₁)
  rw [State.snapshot_of_pending hp] at hsame
  exact ⟨hsame.errCode, hsame.errDetail, hsame.output⟩

/-- Settles O52, by `eq_of_cellAt_eq` on the two rising lists. -/
theorem buffersListingTheSameBytesAreEqual : Obligations.BuffersListingTheSameBytesAreEqual := by
  intro size b c hb hc hdraw hcells
  simp only [Buf.wf, Bool.and_eq_true] at hb hc
  obtain ⟨hbRising, -⟩ := hb
  obtain ⟨hcRising, -⟩ := hc
  have hcs : b.cells = c.cells := eq_of_cellAt_eq hbRising hcRising hcells
  calc
    b = ⟨b.cells, b.draw⟩ := rfl
    _ = ⟨c.cells, c.draw⟩ := by rw [hcs, hdraw]
    _ = c := rfl

end Sys2Proof.Machine

/-! # The memory family (20_memory.md): host accesses, turns, and the machine invariant -/

/-! ## Rules: what an access, a turn and a command can do -/

namespace Sys2Proof.Machine

open Sys2Proof.Safety

/-! ### Widths and alignments -/

/-- The accesses the window accepts, below BUF and in BUF (20_memory.md R62, R63). -/
theorem supportedAccess_iff {off bits : Nat} : supportedAccess off bits = true ↔
    (off < 0x400 ∧ bits = 32 ∧ off % 4 = 0) ∨
    (0x400 ≤ off ∧ (bits = 8 ∨ (bits = 16 ∧ off % 2 = 0) ∨ (bits = 32 ∧ off % 4 = 0))) := by
  by_cases hlow : off < 0x400
  · simp [supportedAccess, Config.bufBase, hlow]
  · simp [supportedAccess, Config.bufBase, hlow, or_assoc, Nat.le_of_not_lt hlow]

/-- A register is reached by a 32-bit access and no other (20_memory.md R62). -/
theorem width_of_supported_reg {r : Reg} {bits : Nat} (h : supportedAccess r.offset bits = true) : bits = 32 := by
  have hlow := r.offset_lt
  rw [supportedAccess_iff] at h
  simp only [Config.bufBase] at hlow
  omega

/-! ### The window -/

theorem windowOffset_outside {addr : Nat} (h : addr < Config.engineBase ∨ Config.engineBase + 0x800 ≤ addr) :
    windowOffset addr = none :=
  if_neg (by simp only [Config.windowSize]; omega)

theorem hostAccess_read_outside (s : State) {addr : Nat} (bits : Nat) (h : windowOffset addr = none) :
    hostAccess s (.read addr bits) = .fault .outsideWindow := by
  simp only [hostAccess, h]

theorem hostAccess_write_outside (s : State) {addr : Nat} (bits : Nat) (v : Word) (h : windowOffset addr = none) :
    hostAccess s (.write addr bits v) = .fault .outsideWindow := by
  simp only [hostAccess, h]

/-! ### BUF accesses that stay below BUF_SIZE -/

theorem leWord_one (a : Byte) : leWord [a] = a.setWidth 32 := by
  simp [leWord]

theorem leWord_two (a b : Byte) : leWord [a, b] = a.setWidth 32 ||| b.setWidth 32 <<< 8 := by
  simp [leWord]

theorem leWord_four (a b c d : Byte) : leWord [a, b, c, d] =
    a.setWidth 32 ||| b.setWidth 32 <<< 8 ||| c.setWidth 32 <<< 16 ||| d.setWidth 32 <<< 24 := by
  simp [leWord, BitVec.shiftLeft_or_distrib, ← BitVec.shiftLeft_add, BitVec.or_assoc]

/-- Below BUF_SIZE an idle read answers `MemRead` of its bytes, little-endian (20_memory.md R65). -/
theorem State.readBufWord_inside {s : State} {k n : Nat} (hidle : s.busy = false) (hfit : k + n ≤ s.cfg.bufSize) :
    s.readBufWord k n = leWord (s.buf.read k n) := by
  rw [State.readBufWord, Buf.read]
  congr 1
  refine List.map_congr_left fun i hi => ?_
  rw [List.mem_range] at hi
  rw [State.readBufByte_idle hidle, if_pos (by omega)]

theorem busRead_buf_inside {s : State} {k n : Nat} (hs : supportedAccess (0x400 + k) (8 * n) = true)
    (hidle : s.busy = false) (hfit : k + n ≤ s.cfg.bufSize) :
    busRead s (0x400 + k) (8 * n) = .next { s with readData := some (leWord (s.buf.read k n)) } := by
  rw [busRead_buf_idle hs hidle, Nat.mul_div_cancel_left n (by decide), State.readBufWord_inside hidle hfit]

/-- Below BUF_SIZE an idle write stores the low `n` bytes of its data and no other byte (20_memory.md R65). -/
theorem busWrite_buf_inside {s : State} {k n : Nat} (v : Word) (hs : supportedAccess (0x400 + k) (8 * n) = true)
    (hidle : s.busy = false) (hfit : k + n ≤ s.cfg.bufSize) :
    ∃ t, busWrite s (0x400 + k) (8 * n) v = .next t ∧ t = { s with buf := t.buf } ∧
      (∀ i, i < n → t.buf.get (k + i) = (v >>> (8 * i)).setWidth 8) ∧
      ∀ j, j < k ∨ k + n ≤ j → t.buf.get j = s.buf.get j := by
  refine ⟨_, busWrite_buf_idle hs hidle, rfl, fun i hi => ?_, fun j hj => ?_⟩
  · rw [Nat.mul_div_cancel_left n (by decide), Buf.get_hostWrite, leBytes_length, if_pos (by omega),
      Nat.add_sub_cancel_left, byteAt_leBytes v hi]
  · rw [Nat.mul_div_cancel_left n (by decide), Buf.get_hostWrite, leBytes_length, if_neg (by omega)]

/-! ### What a host access can do -/

/-- The states a host access of `s` can answer (20_memory.md R62 to R69). -/
inductive HostEffect (s : State) : State → Prop where
  /-- A read changes the answer and, for BUF while busy, the draw count. -/
  | answered (v : Word) {d : Nat} (hd : s.draws ≤ d) : HostEffect s { s with readData := some v, draws := d }
  /-- A write is lost to a busy engine. -/
  | lost : HostEffect s { s with busyErr := true }
  /-- STATUS is written, busy or not. -/
  | statusWritten (v : Word) : HostEffect s (s.writeStatus v)
  | regWritten (hidle : s.busy = false) (r : Reg) (v : Word) : HostEffect s (s.writeReg r v)
  /-- A write of a reserved offset. -/
  | ignored (hidle : s.busy = false) : HostEffect s s
  | bufWritten (hidle : s.busy = false) (k : Nat) (bs : Bytes) :
      HostEffect s { s with buf := s.buf.hostWrite s.cfg.bufSize k bs }

theorem busRead_effect {s t : State} {off bits : Nat} (h : busRead s off bits = .next t) : HostEffect s t := by
  cases hs : supportedAccess off bits with
  | false =>
    rw [busRead_refused hs] at h
    cases h
  | true =>
    obtain ⟨v, d, heq, hd⟩ := busRead_supported s hs
    rw [heq] at h
    cases h
    exact .answered v (by omega)

/-- A write below BUF reaches the register at its offset, if there is one. -/
theorem State.writeRegOffset_effect {s : State} (off : Nat) (v : Word) (hidle : s.busy = false) :
    HostEffect s (s.writeRegOffset off v) := by
  unfold State.writeRegOffset
  cases regAt off with
  | some r => exact .regWritten hidle r v
  | none => exact .ignored hidle

theorem busWrite_effect {s t : State} {off bits : Nat} {v : Word} (h : busWrite s off bits v = .next t) :
    HostEffect s t := by
  cases hs : supportedAccess off bits with
  | false =>
    rw [busWrite_refused hs] at h
    cases h
  | true =>
    rcases busWrite_cases s v hs with ⟨-, -, heq⟩ | ⟨-, -, heq⟩ | ⟨hidle, -, heq⟩ | ⟨hidle, -, heq⟩
    all_goals
      rw [heq] at h
      cases h
    · exact .lost
    · exact .statusWritten v
    · exact State.writeRegOffset_effect off v hidle
    · exact .bufWritten hidle _ _

theorem hostAccess_effect {s t : State} {a : Access} (h : hostAccess s a = .next t) : HostEffect s t := by
  cases a with
  | read addr bits =>
    cases hw : windowOffset addr with
    | none =>
      rw [hostAccess_read_outside s bits hw] at h
      cases h
    | some off =>
      simp only [hostAccess, hw] at h
      exact busRead_effect h
  | write addr bits v =>
    cases hw : windowOffset addr with
    | none =>
      rw [hostAccess_write_outside s bits v hw] at h
      cases h
    | some off =>
      simp only [hostAccess, hw] at h
      exact busWrite_effect h

/-! ### What each turn does -/

section
variable {s : State} {rest : List Turn}

theorem step_host {a : Access} (h : s.schedule = .host a :: rest) :
    step s = hostAccess { s with schedule := rest } a := by
  simp only [step, takeTurn, h]

theorem step_resetInput (h : s.schedule = .resetInput :: rest) :
    step s = .next ({ s with schedule := rest }.assertReset) := by
  simp only [step, takeTurn, h]

theorem step_engine (h : s.schedule = .engine :: rest) : step s = engineTurn { s with schedule := rest } := by
  simp only [step, takeTurn, h]

theorem step_unscheduled (h : s.schedule = []) : step s = engineTurn s := by
  simp only [step, takeTurn, h]

theorem engineTurn_idle (h : s.pending = none) : engineTurn s = .next s := by
  simp only [engineTurn, h]

end

/-! ### What a completion leaves unchanged -/

/-- A command changes STATUS and its output region only, and InvalidParameters not even that (20_memory.md R74). -/
structure ChangesOnly (i : Instr) (s t : State) : Prop where
  frame : CompletionFrame s t
  idle : t.pending = none
  done : t.done = true
  elsewhere : ∀ k, (k < (regionWritten s.snapshot.regs i).off ∨
    (regionWritten s.snapshot.regs i).off + (regionWritten s.snapshot.regs i).len ≤ k) → t.buf.get k = s.buf.get k
  invalid : t.errCode = .invalidParameters → t.buf = s.buf

theorem EndsAs.changesOnly {i : Instr} {s t : State} (h : EndsAs i s t) : ChangesOnly i s t := by
  rcases h with ⟨d, -, rfl⟩ | ⟨bs, hlen, -, rfl⟩ | ⟨m, rfl, -, rfl⟩
  · have hc := completesInvalid_raiseInvalid s d
    exact ⟨hc.frame, hc.idle, hc.done, fun _ _ => by rw [hc.buf], fun _ => hc.buf⟩
  · have hc := completesOk_succeed s s.snapshot.regs.outOff.toNat bs
    refine ⟨hc.frame, hc.idle, hc.done, ?_, by rw [hc.errCode]; nofun⟩
    rw [regionWritten_eq, ← hlen]
    exact hc.elsewhere
  · have hc := completesUnauthentic_raise s s.snapshot.regs.outOff.toNat s.snapshot.msgLen
    refine ⟨hc.frame, hc.idle, hc.done, ?_, by rw [hc.errCode]; nofun⟩
    rw [regionWritten_eq, outputLength, outputLength_msgLen]
    exact hc.elsewhere

theorem decodeDetail_ne_noDetail (e : DecodeError) : decodeDetail e ≠ .noDetail := by
  cases e <;> decide

end Sys2Proof.Machine

/-! ## The machine invariant, kept by each operation -/

namespace Sys2Proof.Safety

open Sys2Proof.Machine

namespace Inv

/-- The invariant reads neither BUSYERR, IRQ_EN, the schedule nor the last answer; DONE may fall and the draw count
rise. -/
theorem of_unread {s : State} (h : Inv s) (done busyErr doneIe busyErrIe : Bool) (schedule : List Turn)
    (readData : Option Word) (draws : Nat) (hdone : s.done = false → done = false) (hdraws : s.draws ≤ draws) :
    Inv { s with done, busyErr, doneIe, busyErrIe, schedule, readData, draws } where
  legal := h.legal
  bufWf := h.bufWf
  freshDraw := Nat.lt_of_lt_of_le h.freshDraw hdraws
  noEngineFailure := h.noEngineFailure
  detailIff := h.detailIff
  snapshotLive := h.snapshotLive
  busyQuiet p hp := by
    obtain ⟨hquiet, hcode⟩ := h.busyQuiet p hp
    exact ⟨hdone hquiet, hcode⟩

/-- An idle state has no snapshot to keep. -/
theorem of_idle {s t : State} (h : Inv s) (hidle : t.pending = none) (hcfg : t.cfg = s.cfg)
    (hwf : t.buf.wf s.cfg.bufSize = true) (hdraw : t.buf.draw < t.draws) (hcode : t.errCode ≠ .cryptoEngineFailure)
    (hdetail : t.errDetail ≠ .noDetail ↔ t.errCode = .invalidParameters) : Inv t where
  legal := hcfg ▸ h.legal
  bufWf := hcfg ▸ hwf
  freshDraw := hdraw
  noEngineFailure := hcode
  detailIff := hdetail
  snapshotLive p hp := by rw [hidle] at hp; cases hp
  busyQuiet p hp := by rw [hidle] at hp; cases hp

section
variable {s : State} (h : Inv s)
include h

/-! ### Completions and resets -/

theorem raiseInvalid {d : ErrDetail} (hd : d ≠ .noDetail) : Inv (s.raiseInvalid d) :=
  h.of_idle rfl rfl h.bufWf h.freshDraw nofun (by simp [hd])

theorem succeed {off : Nat} {bs : Bytes} (hin : inRange s.cfg ⟨off, bs.length⟩ = true) : Inv (s.succeed off bs) :=
  h.of_idle rfl rfl (Buf.wf_write h.bufWf off bs (inRange_iff.mp hin)) (by simpa using h.freshDraw) nofun (by simp)

/-- The buffer's own draw stays below the count, which rises past the draw the output takes (log 4). -/
theorem raiseAuthenticationFailed {off n : Nat} (hin : inRange s.cfg ⟨off, n⟩ = true) :
    Inv (s.raiseAuthenticationFailed off n) := by
  refine h.of_idle rfl rfl ?_ ?_ nofun (by simp)
  · exact Buf.wf_write h.bufWf off _ (by simpa using inRange_iff.mp hin)
  · simpa using Nat.lt_succ_of_lt h.freshDraw

theorem assertReset : Inv s.assertReset :=
  h.of_idle rfl rfl (Buf.wf_empty _ _) s.draws.lt_succ_self nofun (by simp)

/-! ### Host accesses -/

/-- An accepted start takes the live state as its snapshot (20_memory.md R70). -/
theorem startCommand (v : BitVec 31) : Inv (s.startCommand v) where
  legal := h.legal
  bufWf := h.bufWf
  freshDraw := h.freshDraw
  noEngineFailure := nofun
  detailIff := by simp
  snapshotLive p hp := (Option.some.inj hp).symm
  busyQuiet _ _ := ⟨rfl, rfl⟩

theorem writeStatus (v : Word) : Inv (s.writeStatus v) :=
  h.of_unread _ _ _ _ _ _ _ (fun hdone => by simp [hdone]) le_rfl

theorem writeCmd (hidle : s.pending = none) (v : Word) : Inv (s.writeCmd v) := by
  unfold State.writeCmd
  split
  · exact h.startCommand _
  · exact h.of_idle hidle rfl h.bufWf h.freshDraw h.noEngineFailure h.detailIff

theorem writeReg (hidle : s.pending = none) (r : Reg) (v : Word) : Inv (s.writeReg r v) := by
  cases r with
  | ident => exact h
  | cmd => exact h.writeCmd hidle v
  | status => exact h.writeStatus v
  | irqEn => exact h.of_unread _ _ _ _ _ _ _ id le_rfl
  | operand r => exact h.of_idle hidle rfl h.bufWf h.freshDraw h.noEngineFailure h.detailIff

theorem of_hostEffect {t : State} (he : HostEffect s t) : Inv t := by
  cases he with
  | answered v hd => exact h.of_unread _ _ _ _ _ _ _ id hd
  | lost => exact h.of_unread _ _ _ _ _ _ _ id le_rfl
  | statusWritten v => exact h.writeStatus v
  | regWritten hidle r v => exact h.writeReg (State.idle_iff.mp hidle) r v
  | ignored => exact h
  | bufWritten hidle k bs =>
    exact h.of_idle (State.idle_iff.mp hidle) rfl (Buf.wf_hostWrite h.bufWf k bs) (by simpa using h.freshDraw)
      h.noEngineFailure h.detailIff

/-! ### Turns -/

theorem setSchedule (rest : List Turn) : Inv { s with schedule := rest } :=
  h.of_unread _ _ _ _ _ _ _ id le_rfl

theorem of_endsAs {i : Instr} {t : State} (he : EndsAs i s t) : Inv t := by
  rcases he with ⟨d, hd, rfl⟩ | ⟨bs, -, hin, rfl⟩ | ⟨m, -, hin, rfl⟩
  · exact h.raiseInvalid hd
  · exact h.succeed hin
  · exact h.raiseAuthenticationFailed hin

theorem of_engineTurn {t : State} (ht : engineTurn s = .next t) : Inv t := by
  rcases engineTurn_cases s with ⟨-, heq⟩ | ⟨p, i, -, -, heq⟩ | ⟨p, e, -, -, heq⟩
  all_goals rw [heq] at ht
  · cases ht
    exact h
  · exact h.of_endsAs (exec_cases ht)
  · cases ht
    exact h.raiseInvalid (decodeDetail_ne_noDetail e)

theorem of_step {t : State} (ht : step s = .next t) : Inv t := by
  rcases step_cases s with ⟨-, heq⟩ | ⟨rest, -, heq⟩ | ⟨a, rest, -, heq⟩ | ⟨rest, -, heq⟩
  all_goals rw [heq] at ht
  · exact h.of_engineTurn ht
  · exact (h.setSchedule rest).of_engineTurn ht
  · exact (h.setSchedule rest).of_hostEffect (hostAccess_effect ht)
  · cases ht
    exact (h.setSchedule rest).assertReset

end

end Inv

end Sys2Proof.Safety

/-! ## The obligations of the memory family -/

namespace Sys2Proof.Machine

open Sys2Proof.Safety

/-- Settles O51: each turn keeps the invariant, a command by its three ends, a host access by its effects. -/
theorem everyStepKeepsTheInvariant : Obligations.EveryStepKeepsTheInvariant :=
  fun _ _ h ht => h.of_step ht

/-- Settles O19: the rules for `n` bytes, read off for 1, 2 and 4. -/
theorem bufAccessIsLittleEndian : Obligations.BufAccessIsLittleEndian := by
  intro s k v hidle
  refine ⟨fun hfit => ?_, fun halign hfit => ?_, fun halign hfit => ?_⟩
  · have hs : supportedAccess (0x400 + k) (8 * 1) = true := supportedAccess_iff.mpr (by omega)
    obtain ⟨t, ht, hframe, hin, hout⟩ := busWrite_buf_inside v hs hidle hfit
    refine ⟨?_, t, ht, hframe, by simpa using hin 0, fun j hj => hout j (by omega)⟩
    rw [← leWord_one]
    exact busRead_buf_inside hs hidle hfit
  · have hs : supportedAccess (0x400 + k) (8 * 2) = true := supportedAccess_iff.mpr (by omega)
    obtain ⟨t, ht, hframe, hin, hout⟩ := busWrite_buf_inside v hs hidle hfit
    refine ⟨?_, t, ht, hframe, by simpa using hin 0, by simpa using hin 1, hout⟩
    rw [← leWord_two]
    exact busRead_buf_inside hs hidle hfit
  · have hs : supportedAccess (0x400 + k) (8 * 4) = true := supportedAccess_iff.mpr (by omega)
    obtain ⟨t, ht, hframe, hin, hout⟩ := busWrite_buf_inside v hs hidle hfit
    refine ⟨?_, t, ht, hframe, by simpa using hin 0, by simpa using hin 1, by simpa using hin 2,
      by simpa using hin 3, hout⟩
    rw [← leWord_four]
    exact busRead_buf_inside hs hidle hfit

/-- Settles O21: the draw count moves only while busy, and a register is read by a 32-bit access only. -/
theorem hostReadHasNoSideEffect : Obligations.HostReadHasNoSideEffect := by
  intro s off width hs
  refine ⟨?_, fun r hr => ?_⟩
  · obtain ⟨v, d, heq, hd⟩ := busRead_supported s hs
    refine ⟨v, d, heq, fun hidle => ?_⟩
    rcases hd with hd | ⟨hbusy, -, -⟩
    · exact hd
    · rw [hidle] at hbusy
      cases hbusy
  · obtain rfl := regAt_some hr
    obtain rfl := width_of_supported_reg hs
    exact busRead_reg s r

/-- Settles O42: each of a command's three ends changes only STATUS and the output region. -/
theorem everyCommandChangesOnlyStatusAndItsOutput : Obligations.EveryCommandChangesOnlyStatusAndItsOutput := by
  intro i s
  obtain ⟨t, ht, hends⟩ := exec_ends i s
  have hc := hends.changesOnly
  exact ⟨t, ht, hc.frame, hc.idle, hc.done, hc.elsewhere, hc.invalid⟩

/-- Settles O47: of the effects a host access can have, those that write a register or BUF need an idle engine. -/
theorem hostCannotDisturbAPendingCommand : Obligations.HostCannotDisturbAPendingCommand := by
  intro s t a hbusy ht
  cases hostAccess_effect ht with
  | answered | lost | statusWritten => exact ⟨rfl, rfl, rfl, rfl, rfl, rfl, rfl, rfl⟩
  | regWritten hidle _ _ | ignored hidle | bufWritten hidle _ _ => exact absurd hbusy (by simp [hidle])

/-- Settles O9: one rule per kind of turn. -/
theorem stepTakesTheNextTurn : Obligations.StepTakesTheNextTurn := by
  intro s
  refine ⟨fun a rest h => step_host h, fun rest h => step_resetInput h, fun rest hidle h => ?_, fun hidle h => ?_⟩
  · rw [step_engine h]
    exact engineTurn_idle hidle
  · rw [step_unscheduled h, engineTurn_idle hidle]

/-- Settles O14: a write of STATUS is its W1C action, any other is lost. -/
theorem writeWhileBusyIsLost : Obligations.WriteWhileBusyIsLost := by
  intro s off width v hbusy hs
  refine ⟨fun hoff => busWrite_busy hs hbusy hoff, ?_⟩
  rintro rfl
  obtain rfl : width = 32 := width_of_supported_reg (r := .status) hs
  exact busWrite_status s v

/-- Settles O22: none of these accesses is among those the window accepts. -/
theorem unsupportedAccessIsRefused : Obligations.UnsupportedAccessIsRefused := by
  intro s off width v h
  have hs : supportedAccess off width = false := by
    rw [Bool.eq_false_iff, ne_eq, supportedAccess_iff]
    omega
  exact ⟨busRead_refused hs, busWrite_refused hs⟩

/-- Settles O23: the window's two ends bound `windowOffset`. -/
theorem windowBoundsHostAccesses : Obligations.WindowBoundsHostAccesses := by
  intro s addr width v
  refine ⟨fun hout => ?_, ?_⟩
  · have hw := windowOffset_outside hout
    exact ⟨hostAccess_read_outside s width hw, hostAccess_write_outside s width v hw⟩
  · rintro off hoff rfl
    exact ⟨hostAccess_read_base s width hoff, hostAccess_write_base s width v hoff⟩

end Sys2Proof.Machine

/-! # The encoding family (30_encoding.md): the command word, its decoder and encoder, and the statements that write it -/

/-! ## Rules: the fields of a command word -/

namespace Sys2Proof

open Sys2Proof.Machine

/-! ### Fields -/

theorem bits_and (w m : Word) (hi lo : Nat) : bits (w &&& m) hi lo = bits w hi lo &&& bits m hi lo := by
  rw [bits, BitVec.toNat_and, Nat.and_div_two_pow, Nat.and_mod_two_pow, ← bits, ← bits]

theorem bits_or (w m : Word) (hi lo : Nat) : bits (w ||| m) hi lo = bits w hi lo ||| bits m hi lo := by
  rw [bits, BitVec.toNat_or, Nat.or_div_two_pow, Nat.or_mod_two_pow, ← bits, ← bits]

/-- The seven fields of 30_encoding.md R90 cover the word. -/
theorem word_eq_iff {w v : Word} : w = v ↔
    bits w 7 0 = bits v 7 0 ∧ bits w 12 8 = bits v 12 8 ∧ bits w 15 13 = bits v 15 13 ∧
    bits w 16 16 = bits v 16 16 ∧ bits w 19 17 = bits v 19 17 ∧ bits w 30 20 = bits v 30 20 ∧
    bits w 31 31 = bits v 31 31 := by
  constructor
  · rintro rfl
    exact ⟨rfl, rfl, rfl, rfl, rfl, rfl, rfl⟩
  · intro h
    apply BitVec.eq_of_toNat_eq
    simp only [bits] at h
    omega

/-! ### The fields that must be 0, taken apart -/

section
variable (w : Word)

theorem bits_30_8_eq_zero : bits w 30 8 = 0 ↔
    bits w 12 8 = 0 ∧ bits w 15 13 = 0 ∧ bits w 16 16 = 0 ∧ bits w 19 17 = 0 ∧ bits w 30 20 = 0 := by
  simp only [bits]
  omega

theorem bits_16_8_eq_zero : bits w 16 8 = 0 ↔ bits w 12 8 = 0 ∧ bits w 15 13 = 0 ∧ bits w 16 16 = 0 := by
  simp only [bits]
  omega

theorem bits_30_13_eq_zero : bits w 30 13 = 0 ↔
    bits w 15 13 = 0 ∧ bits w 16 16 = 0 ∧ bits w 19 17 = 0 ∧ bits w 30 20 = 0 := by
  simp only [bits]
  omega

theorem bits_15_8_eq_zero : bits w 15 8 = 0 ↔ bits w 12 8 = 0 ∧ bits w 15 13 = 0 := by
  simp only [bits]
  omega

theorem bits_30_17_eq_zero : bits w 30 17 = 0 ↔ bits w 19 17 = 0 ∧ bits w 30 20 = 0 := by
  simp only [bits]
  omega

/-- ASZMIC is one bit, so the flag read from it holds it. -/
theorem toNat_aszmic : (bits w 16 16 == 1).toNat = bits w 16 16 := by
  have hlt : bits w 16 16 < 2 := bits_lt w 16 16
  rcases Nat.lt_succ_iff_lt_or_eq.mp hlt with h | h
  · simp [Nat.lt_one_iff.mp h]
  · simp [h]

end

/-! ### The fields of a command -/

theorem opcodeOf_lt (i : Instr) : opcodeOf i < 256 := by
  rw [← Mnemonic.opcode_of]
  exact Mnemonic.opcode_lt _

theorem aszmicOf_lt (i : Instr) : aszmicOf i < 2 := by
  cases i with
  | nonceApp a | nonceDev a => exact a.toNat_lt
  | _ => exact Nat.zero_lt_two

/-- A command is well formed when its two counts fit; ASZMIC always does. -/
theorem Instr.wf_iff (i : Instr) : i.wf = true ↔ micszOf i < 32 ∧ segcntOf i < 8 := by
  cases i <;> simp [Instr.wf, micszOf, segcntOf]

theorem micszOf_eq_zero {i : Instr} (h : opcodeOf i ≠ 0x09 ∧ opcodeOf i ≠ 0x0A) : micszOf i = 0 := by
  cases i with
  | ccmEnc | ccmDec => simp [opcodeOf] at h
  | _ => rfl

theorem aszmicOf_eq_zero {i : Instr} (h : opcodeOf i ≠ 0x0D ∧ opcodeOf i ≠ 0x0E) : aszmicOf i = 0 := by
  cases i with
  | nonceApp | nonceDev => simp [opcodeOf] at h
  | _ => rfl

theorem segcntOf_eq_zero {i : Instr} (h : opcodeOf i ≠ 0x02) : segcntOf i = 0 := by
  cases i with
  | cmac => simp [opcodeOf] at h
  | _ => rfl

/-! ### The decoder -/

/-- Every bit of `w` but GO is the one 30_encoding.md R90 and R97 give the command `i`. -/
structure HoldsFields (w : Word) (i : Instr) : Prop where
  opcode : bits w 7 0 = opcodeOf i
  micsz : bits w 12 8 = micszOf i
  rsvdLow : bits w 15 13 = 0
  aszmic : bits w 16 16 = aszmicOf i
  segcnt : bits w 19 17 = segcntOf i
  rsvdHigh : bits w 30 20 = 0

theorem requireZero_singleton {n : Nat} {i j : Instr} : requireZero [n] i = .ok j ↔ n = 0 ∧ i = j := by
  rw [requireZero_ok, List.forall_mem_singleton]

theorem requireZero_pair {m n : Nat} {i j : Instr} : requireZero [m, n] i = .ok j ↔ (m = 0 ∧ n = 0) ∧ i = j := by
  rw [requireZero_ok, List.forall_mem_cons, List.forall_mem_singleton]

/-- A decoded word has each field its command uses, and 0 in every other. -/
theorem HoldsFields.of_decode {w : Word} {i : Instr} (h : decode w = .ok i) : HoldsFields w i := by
  unfold decode at h
  split at h
  case h_15 => cases h
  all_goals
    simp only [requireZero_singleton, requireZero_pair, bits_30_8_eq_zero, bits_16_8_eq_zero, bits_30_13_eq_zero,
      bits_15_8_eq_zero, bits_30_17_eq_zero] at h
    obtain ⟨hzero, rfl⟩ := h
    constructor <;> simp [opcodeOf, micszOf, aszmicOf, segcntOf, toNat_aszmic, *]

/-- The fields of a command leave the decoder nothing to reject. -/
theorem HoldsFields.decode_eq {w : Word} {i : Instr} (h : HoldsFields w i) : decode w = .ok i := by
  obtain ⟨hop, hmic, hlow, hasz, hseg, hhigh⟩ := h
  cases i with
  | cmac n =>
    simp only [decode, hop, opcodeOf, requireZero_pair, bits_16_8_eq_zero]
    exact ⟨⟨⟨hmic, hlow, hasz⟩, hhigh⟩, congrArg _ hseg⟩
  | ccmEnc m | ccmDec m =>
    simp only [decode, hop, opcodeOf, requireZero_singleton, bits_30_13_eq_zero]
    exact ⟨⟨hlow, hasz, hseg, hhigh⟩, congrArg _ hmic⟩
  | nonceApp a | nonceDev a =>
    have hflag : (bits w 16 16 == 1) = a := by rw [hasz]; cases a <;> rfl
    simp only [decode, hop, opcodeOf, requireZero_pair, bits_15_8_eq_zero, bits_30_17_eq_zero]
    exact ⟨⟨⟨hmic, hlow⟩, hseg, hhigh⟩, congrArg _ hflag⟩
  | _ =>
    simp only [decode, hop, opcodeOf, requireZero_singleton, bits_30_8_eq_zero]
    exact ⟨⟨hmic, hlow, hasz, hseg, hhigh⟩, trivial⟩

/-- A word decodes to a command exactly when every bit of it but GO is that command's (30_encoding.md R97, R103). -/
theorem decode_ok_iff {w : Word} {i : Instr} : decode w = .ok i ↔ HoldsFields w i :=
  ⟨HoldsFields.of_decode, HoldsFields.decode_eq⟩

/-- BAD_OPCODE is the answer to a reserved opcode and to nothing else (30_encoding.md R99, R103). -/
theorem decode_badOpcode_iff {w : Word} : decode w = .error .badOpcode ↔ bits w 7 0 = 0x00 ∨ 0x0F ≤ bits w 7 0 := by
  unfold decode
  split
  case h_15 =>
    simp only [true_iff, imp_false] at *
    omega
  all_goals
    simp only [requireZero_error, reduceCtorEq, and_false, false_iff]
    omega

/-- The word of a well-formed command holds the command's fields, and GO (30_encoding.md R90). -/
theorem holdsFields_encode {i : Instr} (h : i.wf = true) : HoldsFields (encode i) i ∧ bits (encode i) 31 31 = 1 := by
  obtain ⟨hmicsz, hsegcnt⟩ := i.wf_iff.mp h
  obtain ⟨hop, hmic, hlow, hasz, hseg, hhigh, hgo⟩ :=
    Laws.EncodeFields.fields_of_sum _ _ _ _ (opcodeOf_lt i) hmicsz (aszmicOf_lt i) hsegcnt
  exact ⟨⟨hop, hmic, hlow, hasz, hseg, hhigh⟩, hgo⟩

theorem HoldsFields.wf {w : Word} {i : Instr} (h : HoldsFields w i) : i.wf = true :=
  i.wf_iff.mpr ⟨h.micsz ▸ bits_lt w 12 8, h.segcnt ▸ bits_lt w 19 17⟩

/-- GO is no part of a command's identity (30_encoding.md R103). -/
theorem HoldsFields.clearGo {w : Word} {i : Instr} (h : HoldsFields w i) : HoldsFields ((w.setWidth 31).setWidth 32) i := by
  obtain ⟨hop, hmic, hlow, hasz, hseg, hhigh⟩ := h
  simp only [bits] at hop hmic hlow hasz hseg hhigh
  constructor <;> simp only [bits, BitVec.toNat_setWidth] <;> omega

/-- A word that holds the fields of `i` is, with GO set, the word `encode` gives (30_encoding.md R90). -/
theorem HoldsFields.encode_eq {w : Word} {i : Instr} (h : HoldsFields w i) : encode i = w ||| 0x80000000#32 := by
  obtain ⟨henc, hgo⟩ := holdsFields_encode h.wf
  have hset : bits w 31 31 ||| 1 = 1 := by
    have hlt : bits w 31 31 < 2 := bits_lt w 31 31
    interval_cases bits w 31 31 <;> rfl
  have hkept (hi lo : Nat) (hz : bits 0x80000000#32 hi lo = 0) :
      bits (w ||| 0x80000000#32) hi lo = bits w hi lo := by
    rw [bits_or, hz, Nat.or_zero]
  rw [word_eq_iff, hkept 7 0 rfl, hkept 12 8 rfl, hkept 15 13 rfl, hkept 16 16 rfl, hkept 19 17 rfl, hkept 30 20 rfl]
  refine ⟨henc.opcode.trans h.opcode.symm, henc.micsz.trans h.micsz.symm, henc.rsvdLow.trans h.rsvdLow.symm,
    henc.aszmic.trans h.aszmic.symm, henc.segcnt.trans h.segcnt.symm, henc.rsvdHigh.trans h.rsvdHigh.symm, ?_⟩
  rw [hgo, bits_or]
  exact hset.symm

/-! ### The rows of the opcode table -/

/-- A mask keeps a field it covers. -/
theorem bits_and_ones (w : Word) {m : Word} {hi lo : Nat} (h : bits m hi lo = 2 ^ (hi + 1 - lo) - 1) :
    bits w hi lo &&& bits m hi lo = bits w hi lo := by
  rw [h, Nat.and_two_pow_sub_one_eq_mod, Nat.mod_eq_of_lt (bits_lt w hi lo)]

/-- A mask of the opcode table covers OPCODE and the reserved bits and leaves GO out; it covers each of MICSZ, ASZMIC and
SEGCNT where the row does not use it, so `w AND mask == match` says that the covered fields are `match`'s. -/
theorem and_mask_eq_iff (w : Word) {m : Word} {op : Nat} (hop : op < 256) (hOpcode : bits m 7 0 = 2 ^ 8 - 1)
    (hLow : bits m 15 13 = 2 ^ 3 - 1) (hHigh : bits m 30 20 = 2 ^ 11 - 1) (hGo : bits m 31 31 = 0) :
    w &&& m = BitVec.ofNat 32 op ↔
      bits w 7 0 = op ∧ bits w 12 8 &&& bits m 12 8 = 0 ∧ bits w 15 13 = 0 ∧ bits w 16 16 &&& bits m 16 16 = 0 ∧
      bits w 19 17 &&& bits m 19 17 = 0 ∧ bits w 30 20 = 0 := by
  have hmatch : bits (BitVec.ofNat 32 op) 7 0 = op ∧ bits (BitVec.ofNat 32 op) 12 8 = 0 ∧
      bits (BitVec.ofNat 32 op) 15 13 = 0 ∧ bits (BitVec.ofNat 32 op) 16 16 = 0 ∧
      bits (BitVec.ofNat 32 op) 19 17 = 0 ∧ bits (BitVec.ofNat 32 op) 30 20 = 0 ∧
      bits (BitVec.ofNat 32 op) 31 31 = 0 := by
    simp only [bits, BitVec.toNat_ofNat]
    omega
  obtain ⟨h₁, h₂, h₃, h₄, h₅, h₆, h₇⟩ := hmatch
  rw [word_eq_iff]
  simp only [bits_and, h₁, h₂, h₃, h₄, h₅, h₆, h₇, bits_and_ones w hOpcode, bits_and_ones w hLow, bits_and_ones w hHigh,
    hGo, Nat.and_zero, and_true]

section
variable (w : Word)

/-- The ten rows that use no field. -/
theorem decode_iff_and_mask {i : Instr} (hmicsz : micszOf i = 0 := by rfl) (haszmic : aszmicOf i = 0 := by rfl)
    (hsegcnt : segcntOf i = 0 := by rfl) :
    decode w = .ok i ↔ w &&& 0x7FFFFFFF#32 = BitVec.ofNat 32 (opcodeOf i) := by
  rw [decode_ok_iff, and_mask_eq_iff w (opcodeOf_lt i) rfl rfl rfl rfl, bits_and_ones w (hi := 12) rfl,
    bits_and_ones w (hi := 16) rfl, bits_and_ones w (hi := 19) rfl]
  constructor
  · rintro ⟨hop, hmic, hlow, hasz, hseg, hhigh⟩
    exact ⟨hop, hmic.trans hmicsz, hlow, hasz.trans haszmic, hseg.trans hsegcnt, hhigh⟩
  · rintro ⟨hop, hmic, hlow, hasz, hseg, hhigh⟩
    exact ⟨hop, hmic.trans hmicsz.symm, hlow, hasz.trans haszmic.symm, hseg.trans hsegcnt.symm, hhigh⟩

/-- The row that uses SEGCNT. -/
theorem exists_decode_cmac_iff_and_mask : (∃ n, decode w = .ok (.cmac n)) ↔ w &&& 0x7FF1FFFF#32 = 0x00000002#32 := by
  rw [and_mask_eq_iff w (op := 0x02) (by decide) rfl rfl rfl rfl, bits_and_ones w (hi := 12) rfl,
    bits_and_ones w (hi := 16) rfl]
  simp only [decode_ok_iff]
  constructor
  · rintro ⟨n, hop, hmic, hlow, hasz, -, hhigh⟩
    exact ⟨hop, hmic, hlow, hasz, Nat.and_zero _, hhigh⟩
  · rintro ⟨hop, hmic, hlow, hasz, -, hhigh⟩
    exact ⟨bits w 19 17, hop, hmic, hlow, hasz, rfl, hhigh⟩

/-- The two rows that use MICSZ. -/
theorem exists_decode_ccm_iff_and_mask {op : Nat} {f : Nat → Instr} (hop : op < 256) (hopcode : ∀ m, opcodeOf (f m) = op)
    (hmicsz : ∀ m, micszOf (f m) = m) (haszmic : ∀ m, aszmicOf (f m) = 0) (hsegcnt : ∀ m, segcntOf (f m) = 0) :
    (∃ m, decode w = .ok (f m)) ↔ w &&& 0x7FFFE0FF#32 = BitVec.ofNat 32 op := by
  rw [and_mask_eq_iff w hop rfl rfl rfl rfl, bits_and_ones w (hi := 16) rfl, bits_and_ones w (hi := 19) rfl]
  simp only [decode_ok_iff]
  constructor
  · rintro ⟨m, hop, hmic, hlow, hasz, hseg, hhigh⟩
    exact ⟨hop.trans (hopcode m), Nat.and_zero _, hlow, hasz.trans (haszmic m), hseg.trans (hsegcnt m), hhigh⟩
  · rintro ⟨hop, -, hlow, hasz, hseg, hhigh⟩
    exact ⟨bits w 12 8, hop.trans (hopcode _).symm, (hmicsz _).symm, hlow, hasz.trans (haszmic _).symm,
      hseg.trans (hsegcnt _).symm, hhigh⟩

/-- The two rows that use ASZMIC. -/
theorem exists_decode_nonceAppl_iff_and_mask {op : Nat} {f : Bool → Instr} (hop : op < 256)
    (hopcode : ∀ a, opcodeOf (f a) = op) (hmicsz : ∀ a, micszOf (f a) = 0) (haszmic : ∀ a, aszmicOf (f a) = a.toNat)
    (hsegcnt : ∀ a, segcntOf (f a) = 0) :
    (∃ a, decode w = .ok (f a)) ↔ w &&& 0x7FFEFFFF#32 = BitVec.ofNat 32 op := by
  rw [and_mask_eq_iff w hop rfl rfl rfl rfl, bits_and_ones w (hi := 12) rfl, bits_and_ones w (hi := 19) rfl]
  simp only [decode_ok_iff]
  constructor
  · rintro ⟨a, hop, hmic, hlow, hasz, hseg, hhigh⟩
    exact ⟨hop.trans (hopcode a), hmic.trans (hmicsz a), hlow, Nat.and_zero _, hseg.trans (hsegcnt a), hhigh⟩
  · rintro ⟨hop, hmic, hlow, -, hseg, hhigh⟩
    exact ⟨bits w 16 16 == 1, hop.trans (hopcode _).symm, hmic.trans (hmicsz _).symm, hlow,
      (toNat_aszmic w).symm.trans (haszmic _).symm, hseg.trans (hsegcnt _).symm, hhigh⟩

end

end Sys2Proof

/-! ## Rules: the statements of a program that write CMD or read STATUS -/

namespace Sys2Proof.Machine

open Sys2Proof.Safety

/-- A word that is no command completes with InvalidParameters (60_exceptions.md R246). -/
theorem engineTurn_of_decode_error {s : State} {p : Snapshot} {e : DecodeError} (hp : s.pending = some p)
    (hd : decode p.cmdWord = .error e) : ∃ t, engineTurn s = .next t ∧ CompletesInvalid s t (decodeDetail e) :=
  ⟨s.raiseInvalid (decodeDetail e), by simp only [engineTurn, hp, hd], completesInvalid_raiseInvalid s _⟩

/-- With the fields of a well-formed command, `go` writes the word that encodes it (30_encoding.md R105). -/
theorem goWord_command {i : Instr} (h : i.wf = true) :
    goWord (mnemonicOf i) (micszOf i) (aszmicOf i) (segcntOf i) = encode i := by
  obtain ⟨hmicsz, hsegcnt⟩ := i.wf_iff.mp h
  rw [goWord_eq_sum _ hmicsz (aszmicOf_lt i) hsegcnt, Mnemonic.opcode_of, encode]

/-- GO is 1 in the word of any `go`, whatever its fields hold. -/
theorem goWord_go (mn : Mnemonic) (mic aszmic n : Nat) : (goWord mn mic aszmic n).getLsbD 31 = true := by
  simp [goWord]

theorem State.writeCmd_start (s : State) {v : Word} (h : v.getLsbD 31 = true) :
    s.writeCmd v = s.startCommand (v.setWidth 31) :=
  if_pos h

theorem State.writeCmd_store (s : State) {v : Word} (h : v.getLsbD 31 = false) :
    s.writeCmd v = { s with cmd := v.setWidth 31 } :=
  if_neg (by rw [h]; exact Bool.false_ne_true)

/-- `wait` ends at the first STATUS with BUSY = 0 (30_encoding.md R105). -/
theorem waitDone_statusWord (s : State) : waitDone s.statusWord = !s.busy := by
  obtain ⟨hbusy, -⟩ := s.statusWord_bits
  simp only [bits, pow_zero, Nat.div_one, zero_add, Nat.sub_zero, pow_one] at hbusy
  rw [waitDone, ← BitVec.testBit_toNat, Nat.testBit_zero, hbusy]
  cases s.busy <;> rfl

/-- A read of STATUS takes one turn of a program and answers the STATUS word, which says what is left to do. -/
theorem programTurns_readStatus {act : HostAct} (hact : act.bus = regRead .status) (order : List Who)
    (rest : List HostAct) (s : State) :
    programTurns (.program :: order) (act :: rest) s = .host (regRead .status) ::
      programTurns order (act.andThen (some s.statusWord) rest) { s with readData := some s.statusWord } := by
  rw [programTurns, hact, hostAccess_regRead]
  rfl

end Sys2Proof.Machine

/-! ## The obligations of the encoding family -/

namespace Sys2Proof.Machine

open Sys2Proof.Safety

/-- Settles O1: the encoder puts a command's fields where the decoder reads them. -/
theorem decodeOfEncodeIsIdentity : Obligations.DecodeOfEncodeIsIdentity := by
  intro i hwf
  obtain ⟨hfields, -⟩ := holdsFields_encode hwf
  exact hfields.decode_eq

/-- Settles O2: the decoder checks every bit it does not read, so only GO can differ. -/
theorem encodeOfDecodeRestoresTheWord : Obligations.EncodeOfDecodeRestoresTheWord :=
  fun _ _ h => (HoldsFields.of_decode h).encode_eq

/-- Settles O3: a decoded count is a field of the word, bounded by its width. -/
theorem decodedCommandIsWellFormed : Obligations.DecodedCommandIsWellFormed :=
  fun _ _ h => (HoldsFields.of_decode h).wf

/-- Settles O4, one rule per kind of mask. -/
theorem decoderMatchesTheOpcodeTable : Obligations.DecoderMatchesTheOpcodeTable := by
  intro w
  exact ⟨decode_iff_and_mask w, exists_decode_cmac_iff_and_mask w, decode_iff_and_mask w, decode_iff_and_mask w,
    decode_iff_and_mask w, decode_iff_and_mask w, decode_iff_and_mask w, decode_iff_and_mask w,
    exists_decode_ccm_iff_and_mask w (by decide) (fun _ => rfl) (fun _ => rfl) (fun _ => rfl) (fun _ => rfl),
    exists_decode_ccm_iff_and_mask w (by decide) (fun _ => rfl) (fun _ => rfl) (fun _ => rfl) (fun _ => rfl),
    decode_iff_and_mask w, decode_iff_and_mask w,
    exists_decode_nonceAppl_iff_and_mask w (by decide) (fun _ => rfl) (fun _ => rfl) (fun _ => rfl) (fun _ => rfl),
    exists_decode_nonceAppl_iff_and_mask w (by decide) (fun _ => rfl) (fun _ => rfl) (fun _ => rfl) (fun _ => rfl)⟩

/-- Settles O6: a reserved opcode is no command, so the engine's turn completes with its detail. -/
theorem reservedOpcodeCompletesWithBadOpcode : Obligations.ReservedOpcodeCompletesWithBadOpcode :=
  fun _ _ hp hop => engineTurn_of_decode_error hp (decode_badOpcode_iff.mpr hop)

/-- Settles O7: the word is no command, whose unused fields would be 0, and its opcode is defined, which leaves
RSVD_BITS. -/
theorem strayBitsCompleteWithRsvdBits : Obligations.StrayBitsCompleteWithRsvdBits := by
  intro s p hp w op hlo hhi hstray
  cases hd : decode w with
  | ok i =>
    obtain ⟨hop, hmic, hlow, hasz, hseg, hhigh⟩ := HoldsFields.of_decode hd
    have hop' : op = opcodeOf i := hop
    rcases hstray with h | h | ⟨h, hunused⟩ | ⟨h, hunused⟩ | ⟨h, hunused⟩
    · exact absurd hlow h
    · exact absurd hhigh h
    · exact absurd (hmic.trans (micszOf_eq_zero (hop' ▸ hunused))) h
    · exact absurd (hasz.trans (aszmicOf_eq_zero (hop' ▸ hunused))) h
    · exact absurd (hseg.trans (segcntOf_eq_zero (hop' ▸ hunused))) h
  | error e =>
    cases e with
    | badOpcode =>
      have hop : op = 0 ∨ 0x0F ≤ op := decode_badOpcode_iff.mp hd
      omega
    | rsvdBits => exact engineTurn_of_decode_error hp hd

/-- Settles O10: fields that fit do not overlap, so the word is their sum. -/
theorem goWordHoldsItsFields : Obligations.GoWordHoldsItsFields := by
  refine ⟨fun mn mic aszmic n hmic haszmic hn => ?_, fun i hwf => goWord_command hwf⟩
  rw [goWord_eq_sum mn hmic haszmic hn]
  exact Laws.EncodeFields.fields_of_sum _ _ _ _ mn.opcode_lt hmic haszmic hn

/-- Settles O11: the access writes CMD with GO = 1, and the pending word loses GO only, which is no part of the command. -/
theorem goStatementStartsItsCommand : Obligations.GoStatementStartsItsCommand := by
  intro mn mic aszmic n s rest hidle hsched
  have hturn : s.schedule = .host (regWrite .cmd (goWord mn mic aszmic n)) :: rest := hsched
  have hlive : ({ s with schedule := rest } : State).busy = false := hidle
  have hstep : step s = .next ({ s with schedule := rest }.startCommand ((goWord mn mic aszmic n).setWidth 31)) := by
    rw [step_host hturn, hostAccess_regWrite_idle .cmd _ hlive, State.writeReg,
      State.writeCmd_start _ (goWord_go mn mic aszmic n)]
  refine ⟨_, _, hstep, State.startCommand_pending _ _, rfl, rfl, rfl, rfl, fun i hwf hgo => ?_⟩
  obtain ⟨rfl, rfl, rfl, rfl⟩ := AsmStmt.go.inj hgo
  obtain ⟨hfields, -⟩ := holdsFields_encode hwf
  rw [goWord_command hwf]
  exact hfields.clearGo.decode_eq

/-- Settles O12: both statements read STATUS, and the word they read holds BUSY and ERRCODE. -/
theorem waitAndExpectFollowTheStatusTheyRead : Obligations.WaitAndExpectFollowTheStatusTheyRead := by
  intro s order rest e turns t
  refine ⟨?_, ?_, ?_⟩
  · have hwait : HostAct.poll.andThen (some s.statusWord) rest =
        if s.busy then AsmStmt.wait.acts ++ rest else rest := by
      rw [HostAct.andThen, waitDone_statusWord]
      cases s.busy <;> rfl
    rw [← hwait]
    exact programTurns_readStatus rfl order rest s
  · have hexpect : (HostAct.check e).andThen (some s.statusWord) rest = if bits s.statusWord 7 4 = e then rest else [] := by
      simp only [HostAct.andThen, expectMet, beq_iff_eq]
    rw [← hexpect]
    exact programTurns_readStatus rfl order rest s
  · rw [step_host rfl, hostAccess_regRead]
    rfl

/-- Settles O5: the eight words of 30_encoding.md R104. -/
theorem sampleCommandWordsDecode : Obligations.SampleCommandWordsDecode := by
  unfold Obligations.SampleCommandWordsDecode
  decide

/-- Settles O13: a start and a store are the two branches of a write of CMD, and the stored bits leave GO 0. -/
theorem cmdWriteStartsOrStores : Obligations.CmdWriteStartsOrStores := by
  intro s v
  have hwrite (hidle : s.busy = false) : busWrite s 0x004 32 v = .next (s.writeCmd v) :=
    busWrite_reg_idle .cmd v hidle
  refine ⟨fun hidle hgo => ?_, fun hidle hgo => ?_, fun hbusy => busWrite_busy rfl hbusy (by decide),
    s.cmd.setWidth 32, busRead_reg s .cmd, ?_, ?_⟩
  · rw [hwrite hidle, s.writeCmd_start hgo, State.startCommand]
  · rw [hwrite hidle, s.writeCmd_store hgo]
  · exact BitVec.setWidth_setWidth_of_le _ (by decide)
  · simp

end Sys2Proof.Machine

/-! # The block cipher family (41_block_cipher.md): AES_ECB, the S-box, and the known answers -/

/-! ## Rules: a command in range, the S-box's formula, and CMAC of the empty message -/

namespace Sys2Proof.Machine

open Sys2Proof.Safety

/-! ### A command whose regions fit -/

/-- A command that only checks its ranges, with every region in range, completes with its own output (60_exceptions.md
R242). -/
theorem completesOk_of_fits {s : State} {l : List Region} (hfits : ∀ r ∈ l, Fits s.cfg r.off r.len) (off : Nat)
    (bs : Bytes) : CompletesOk s (s.ifInRange l (s.succeed off bs)) off bs := by
  rw [State.ifInRange_pos fun r hr => inRange_iff.mpr (hfits r hr)]
  exact completesOk_succeed s off bs

/-! ### The S-box (41_block_cipher.md R122) -/

/-- The inverse of the affine map A of R122, again a XOR of rotations and a constant. -/
def affinePreimage (b : Byte) : Byte := b.rotateLeft 1 ^^^ b.rotateLeft 3 ^^^ b.rotateLeft 6 ^^^ 0x05#8

theorem affine_affinePreimage : ∀ b : Byte, affine (affinePreimage b) = b := by decide

theorem affinePreimage_sbox_zero : affinePreimage (sbox 0) = 0 := by decide

/-- The table, read back through the affine map, holds the multiplicative inverses. -/
theorem gmul_affinePreimage_sbox : ∀ x : Byte, x ≠ 0 → gmul x (affinePreimage (sbox x)) = 1 := by decide +kernel

/-! ### CMAC of the empty message (42_cmac.md R142 to R144) -/

theorem xorBytes_zeros (b : Bytes) : xorBytes (zeros b.length) b = b := by
  apply List.ext_getElem
  · simp
  · intro i _ _
    simp [xorBytes, zeros]

/-- The empty message is one block, the padding, masked by K2 (R143); the chain starts at zero (R144). -/
theorem cmac_nil (k : Bytes) : cmac k [] = aes k (xorBytes (0x80 :: zeros 15) (cmacK2 k)) := by
  have hlast : cmacLastBlock k [] = xorBytes (0x80 :: zeros 15) (cmacK2 k) := rfl
  have hlen : (cmacLastBlock k []).length = 16 := by simp [hlast, cmacK2, dbl, intToBlock]
  have hcmac : cmac k [] = aes k (xorBytes (zeros (cmacLastBlock k []).length) (cmacLastBlock k [])) := by
    rw [hlen]
    rfl
  rw [hcmac, xorBytes_zeros, hlast]

/-! ### Known answers of AES (95_test_vectors.md) -/

/-- FIPS-197, C.1. -/
theorem aes_fips197_C1 :
    aes [0x00, 0x01, 0x02, 0x03, 0x04, 0x05, 0x06, 0x07, 0x08, 0x09, 0x0a, 0x0b, 0x0c, 0x0d, 0x0e, 0x0f]
      [0x00, 0x11, 0x22, 0x33, 0x44, 0x55, 0x66, 0x77, 0x88, 0x99, 0xaa, 0xbb, 0xcc, 0xdd, 0xee, 0xff] =
      [0x69, 0xc4, 0xe0, 0xd8, 0x6a, 0x7b, 0x04, 0x30, 0xd8, 0xcd, 0xb7, 0x80, 0x70, 0xb4, 0xc5, 0x5a] := by
  decide +kernel

/-- V-AES-1, which is L of R142 for the zero key. -/
theorem aes_zeroKey_zeros : aes zeroKey (zeros 16) =
    [0x66, 0xe9, 0x4b, 0xd4, 0xef, 0x8a, 0x2c, 0x3b, 0x88, 0x4c, 0xfa, 0x59, 0xca, 0x34, 0x2b, 0x2e] := by
  decide +kernel

/-- K2 of R142 for the zero key, L doubled twice. -/
theorem cmacK2_zeroKey : cmacK2 zeroKey =
    [0x9b, 0xa5, 0x2f, 0x53, 0xbe, 0x28, 0xb0, 0xee, 0x21, 0x33, 0xe9, 0x67, 0x28, 0xd0, 0xac, 0x3f] := by
  rw [cmacK2, cmacK1, aes_zeroKey_zeros]
  decide +kernel

/-- The source's own known answer (42_cmac.md, after R144). -/
theorem cmac_zeroKey_nil : cmac zeroKey [] =
    [0x43, 0x87, 0xc1, 0x4b, 0x46, 0xef, 0x7e, 0x17, 0x6d, 0xce, 0xef, 0xa8, 0x62, 0xd7, 0x2f, 0xf9] := by
  rw [cmac_nil, cmacK2_zeroKey]
  decide +kernel

end Sys2Proof.Machine

/-! ## The obligations of the block cipher family -/

namespace Sys2Proof.Machine

open Sys2Proof.Safety

/-- Settles O27: the three regions AES_ECB checks are the three the statement puts in range. -/
theorem aesEcbWritesTheCipherBlock : Obligations.AesEcbWritesTheCipherBlock := by
  intro s p hp hkey hmsg hout
  obtain rfl := State.snapshot_of_pending hp
  refine ⟨_, rfl, completesOk_of_fits ?_ _ _⟩
  simp only [List.forall_mem_cons]
  exact ⟨hkey, hmsg, hout, nofun⟩

/-- Settles O53: y is the byte the affine map takes to the S-box entry, and the table makes it the inverse of x. -/
theorem sboxIsTheAffineMapOfTheInverse : Obligations.SboxIsTheAffineMapOfTheInverse := by
  intro x
  refine ⟨affinePreimage (sbox x), ?_, (affine_affinePreimage _).symm⟩
  split
  next hx => rw [hx, affinePreimage_sbox_zero]
  next hx => exact gmul_affinePreimage_sbox x hx

/-- Settles O54: FIPS-197 C.1 evaluated, and the tag of the empty message through the subkey K2 of the zero key. -/
theorem knownAnswersOfAesAndCmac : Obligations.KnownAnswersOfAesAndCmac :=
  ⟨aes_fips197_C1, cmac_zeroKey_nil⟩

end Sys2Proof.Machine

/-! # The CMAC family (42_cmac.md): the tag of the segments, and the message however it is split -/

/-! ## Rules: a range check that passed, and the regions and the message of CMAC -/

namespace Sys2Proof.Machine

open Sys2Proof.Safety

/-- A range check that ends with code OK was passed: every region is in range and the command went on
(60_exceptions.md R245). -/
theorem State.fits_of_ifInRange_ok {s t : State} {l : List Region} (hok : (s.ifInRange l t).errCode = .ok) :
    ∀ r ∈ l, Fits s.cfg r.off r.len := by
  rcases State.ifInRange_cases s t l with ⟨hrange, -⟩ | ⟨-, hraise⟩
  · exact fun r hr => inRange_iff.mp (hrange r hr)
  · rw [hraise] at hok
    exact absurd hok nofun

/-- The regions CMAC checks: the key, the first `n` segments and the 16 bytes of output (30_encoding.md R98). -/
def Snapshot.cmacRegions (p : Snapshot) (n : Nat) : List Region := p.keyRegion :: p.segRegions n ++ [p.outRegion 16]

/-- The bytes of the first `n` segments, concatenated (42_cmac.md R145). -/
def Snapshot.cmacMessage (p : Snapshot) (n : Nat) : Bytes :=
  (p.regs.segs.take n).flatMap fun g => p.buf.read g.off.toNat g.len.toNat

theorem cmacRegions_fit_iff (cfg : Config) (p : Snapshot) (n : Nat) :
    (∀ r ∈ p.cmacRegions n, Fits cfg r.off r.len) ↔
      Fits cfg p.regs.keyOff.toNat 16 ∧ (∀ g ∈ p.regs.segs.take n, Fits cfg g.off.toNat g.len.toNat) ∧
        Fits cfg p.regs.outOff.toNat 16 := by
  rw [Snapshot.cmacRegions, List.cons_append, List.forall_mem_cons, List.forall_mem_append, List.forall_mem_singleton,
    Snapshot.segRegions, List.forall_mem_map]
  rfl

theorem cmacSegments_segRegions (k : Bytes) (p : Snapshot) (n : Nat) :
    cmacSegments k ((p.segRegions n).map p.bytes) = cmac k (p.cmacMessage n) := by
  rw [cmacSegments, Snapshot.segRegions, List.map_map]
  rfl

/-- Within SEGCNT's bound CMAC only checks its ranges and writes its tag (42_cmac.md R146). -/
theorem exec_cmac_of_le {n : Nat} (s : State) (hn : n ≤ 4) :
    exec (.cmac n) s = .next (s.ifInRange (s.snapshot.cmacRegions n)
      (s.succeed s.snapshot.regs.outOff.toNat
        (cmac (s.snapshot.bytes s.snapshot.keyRegion) (s.snapshot.cmacMessage n)))) := by
  rw [← cmacSegments_segRegions]
  exact congrArg Host.Outcome.next (if_neg (Nat.not_lt.mpr hn))

/-- Past SEGCNT's bound CMAC raises InvalidParameters (42_cmac.md R146). -/
theorem exec_cmac_of_gt {n : Nat} (s : State) (hn : 4 < n) : exec (.cmac n) s = .next (s.raiseInvalid .segcnt) :=
  congrArg Host.Outcome.next (if_pos hn)

/-- A CMAC that completes without an error had a SEGCNT of at most 4 and its regions in range. -/
theorem cmac_fits_of_ok {n : Nat} {s t : State} (ht : exec (.cmac n) s = .next t) (hok : t.errCode = .ok) :
    n ≤ 4 ∧ ∀ r ∈ s.snapshot.cmacRegions n, Fits s.cfg r.off r.len := by
  rcases Nat.lt_or_ge 4 n with hn | hn
  · obtain rfl := Host.Outcome.next.inj ((exec_cmac_of_gt s hn).symm.trans ht)
    exact absurd hok nofun
  · obtain rfl := Host.Outcome.next.inj ((exec_cmac_of_le s hn).symm.trans ht)
    exact ⟨hn, State.fits_of_ifInRange_ok hok⟩

end Sys2Proof.Machine

/-! ## The obligations of the CMAC family -/

namespace Sys2Proof.Machine

open Sys2Proof.Safety

/-- Settles O28: the regions CMAC checks are those the statement puts in range, and its segments' strings
concatenate to its message. -/
theorem cmacWritesTheTagOfItsSegments : Obligations.CmacWritesTheTagOfItsSegments := by
  intro s p n hp hn hkey hout hsegs
  obtain rfl := State.snapshot_of_pending hp
  exact ⟨_, exec_cmac_of_le s hn, completesOk_of_fits ((cmacRegions_fit_iff _ _ _).mpr ⟨hkey, hsegs, hout⟩) _ _⟩

/-- The tag a CMAC that completed without an error left at OUT_OFF: its regions were in range, so
`cmacWritesTheTagOfItsSegments` says what it wrote. -/
theorem cmac_output_of_ok {n : Nat} {s t : State} {p : Snapshot} (hp : s.pending = some p)
    (ht : exec (.cmac n) s = .next t) (hok : t.errCode = .ok) :
    t.buf.read p.regs.outOff.toNat 16 = cmac (p.bytes p.keyRegion) (p.cmacMessage n) := by
  obtain ⟨hn, hfits⟩ := cmac_fits_of_ok ht hok
  rw [State.snapshot_of_pending hp] at hfits
  obtain ⟨hkey, hsegs, hout⟩ := (cmacRegions_fit_iff _ _ _).mp hfits
  obtain ⟨t', ht', hcompletes⟩ := cmacWritesTheTagOfItsSegments s p n hp hn hkey hout hsegs
  obtain rfl := Host.Outcome.next.inj (ht'.symm.trans ht)
  have houtput := hcompletes.output
  rw [cmac_length] at houtput
  exact houtput

/-- Settles O58: each tag is a function of the key and the concatenated message alone, and these are equal. -/
theorem cmacIgnoresHowTheMessageIsSplit : Obligations.CmacIgnoresHowTheMessageIsSplit := by
  intro a b s t s' t' p q hp hq hkey hmsg hs ht hsok htok
  calc
    s'.buf.read p.regs.outOff.toNat 16
    _ = cmac (p.bytes p.keyRegion) (p.cmacMessage a) := cmac_output_of_ok hp hs hsok
    _ = cmac (q.bytes q.keyRegion) (q.cmacMessage b) := congrArg₂ cmac hkey hmsg
    _ = t'.buf.read q.regs.outOff.toNat 16 := (cmac_output_of_ok hq ht htok).symm

end Sys2Proof.Machine

/-! # The key derivation family (43_kdf.md): S1, K1, K2, K3, K4 and ID128 -/

/-! ## Rules: the derivation functions written out, the bits they clear, and a command that answers its output -/

namespace Sys2Proof.Machine

open Sys2Proof.Safety

/-! ### The derivation functions (43_kdf.md R161 to R167) -/

/-- ZERO_KEY is sixteen zero bytes (R161, R162). -/
theorem s1_eq (m : Bytes) : s1 m = cmac (List.replicate 16 0x00#8) m := rfl

/-- The last bytes of a string are what is left when the bytes before them are dropped (00_scope.md R9). -/
theorem lastBytes_eq_drop (b : Bytes) (n : Nat) : lastBytes b n = b.drop (b.length - n) := by
  rw [lastBytes, slice]
  refine List.take_of_length_le ?_
  rw [List.length_drop]
  omega

/-- A tag has sixteen bytes, so its last eight are bytes 8 to 15 (R165). -/
theorem k3_eq_drop (n : Bytes) :
    k3 n = (cmac (cmac (s1 [0x73, 0x6d, 0x6b, 0x33]) n) [0x69, 0x64, 0x36, 0x34, 0x01]).drop 8 := by
  rw [k3, lastBytes_eq_drop, cmac_length, labelSmk3, infoId64]

/-- The id128 derivation with k1 and its info string written out (R163, R167). -/
theorem id128_eq_cmac (n label : Bytes) :
    id128 n label = cmac (cmac (s1 label) n) [0x69, 0x64, 0x31, 0x32, 0x38, 0x01] := rfl

/-- The mask of NID leaves bit 7 clear (R164). -/
theorem nidMask_bit7 (b : Byte) : (b &&& 0x7F).getLsbD 7 = false := by
  rw [BitVec.getLsbD_and, show (0x7F : Byte).getLsbD 7 = false by decide, Bool.and_false]

/-- The mask of k4 leaves six bits (R166). -/
theorem aidMask_lt (b : Byte) : (b &&& 0x3F).toNat < 0x40 := by
  rw [BitVec.toNat_and]
  exact Nat.lt_of_le_of_lt Nat.and_le_right (by decide)

/-! ### A command that answers its output -/

/-- `completesOk_of_fits` for a command that checks the regions `l` and writes `bs`: the conditions on the regions of a
list written out are the conjunction that `List.Forall` computes to. -/
theorem exec_completesOk {i : Instr} {s : State} {l : List Region} {off : Nat} {bs : Bytes}
    (hexec : exec i s = .next (s.ifInRange l (s.succeed off bs)))
    (hfits : l.Forall fun r => Fits s.cfg r.off r.len) :
    ∃ t, exec i s = .next t ∧ CompletesOk s t off bs :=
  ⟨_, hexec, completesOk_of_fits (List.forall_iff_forall_mem.mp hfits) off bs⟩

end Sys2Proof.Machine

/-! ## The obligations of the key derivation family -/

namespace Sys2Proof.Machine

open Sys2Proof.Safety

/-- Settles O29: S1 checks its label and its output and no key, and `s1_eq` is its tag. -/
theorem s1WritesTheSaltOfItsLabel : Obligations.S1WritesTheSaltOfItsLabel := by
  intro s p hp hseg0 hout
  obtain rfl := State.snapshot_of_pending hp
  rw [← s1_eq]
  exact exec_completesOk (i := .s1) rfl ⟨hseg0, hout⟩

/-- Settles O30: the four regions K1 checks are those the statement puts in range, and the tag is k1 written out. -/
theorem k1WritesTheTwoStageTag : Obligations.K1WritesTheTwoStageTag := by
  intro s p hp hkey hseg0 hseg1 hout
  obtain rfl := State.snapshot_of_pending hp
  rw [← k1]
  exact exec_completesOk (i := .k1) rfl ⟨hkey, hseg0, hseg1, hout⟩

/-- Settles O31: NID's bit 7 is masked, and the 33 bytes of the chain are `k2Output`. -/
theorem k2WritesNidAndTwoKeys : Obligations.K2WritesNidAndTwoKeys := by
  intro s p hp hkey hseg0 hout par t t1 t2 t3
  obtain rfl := State.snapshot_of_pending hp
  have hchain : [byteAt t1 15 &&& 0x7F] ++ t2 ++ t3 =
      k2Output (s.snapshot.bytes s.snapshot.keyRegion) (s.snapshot.bytes s.snapshot.regs.seg0.region) := rfl
  rw [hchain]
  exact ⟨nidMask_bit7 _, exec_completesOk (i := .k2) rfl ⟨hkey, hseg0, hout⟩⟩

/-- Settles O32: the bytes the statement keeps are the last eight, `k3_eq_drop`. -/
theorem k3WritesTheLastEightBytes : Obligations.K3WritesTheLastEightBytes := by
  intro s p hp hkey hout
  obtain rfl := State.snapshot_of_pending hp
  rw [← k3_eq_drop]
  exact exec_completesOk (i := .k3) rfl ⟨hkey, hout⟩

/-- Settles O33: the mask bounds the byte, which is k4 of the bytes at KEY_OFF. -/
theorem k4WritesTheMaskedLastByte : Obligations.K4WritesTheMaskedLastByte := by
  intro s p hp hkey hout b
  obtain rfl := State.snapshot_of_pending hp
  have hb : b = k4 (s.snapshot.bytes s.snapshot.keyRegion) := rfl
  rw [hb]
  exact ⟨aidMask_lt _, exec_completesOk (i := .k4) rfl ⟨hkey, hout⟩⟩

/-- Settles O34: the three regions ID128 checks are those the statement puts in range, and `id128_eq_cmac` is its tag. -/
theorem id128WritesTheDerivedKey : Obligations.Id128WritesTheDerivedKey := by
  intro s p hp hkey hseg0 hout
  obtain rfl := State.snapshot_of_pending hp
  rw [← id128_eq_cmac]
  exact exec_completesOk (i := .id128) rfl ⟨hkey, hseg0, hout⟩

end Sys2Proof.Machine

/-! # The CCM family (44_ccm.md): counter mode, CCM_ENC and CCM_DEC, and the round trip -/

/-! ## Rules: the CCM functions and the parts of a region -/

namespace Sys2Proof.Machine

open Sys2Proof.Safety

/-! ### The CCM functions (44_ccm.md R197 to R203) -/

/-- The keystream depends on the length of the data only, so the second XOR takes the first away (R197). -/
theorem ccmCtr_ccmCtr (key nonce d : Bytes) : ccmCtr key nonce (ccmCtr key nonce d) = d := by
  rw [ccmCtr, ccmCtr_length, ccmCtr]
  refine xorBytes_xorBytes _ _ ?_
  rw [firstBytes_length, ccmKeystream_length]
  omega

/-- A MIC over the recovered plaintext that equals the received one verifies (R201, R202). -/
theorem ccmDecrypt_of_mic_eq {key nonce aad c t : Bytes} {m : Nat}
    (h : ccmMic key nonce aad (ccmCtr key nonce c) m = t) :
    ccmDecrypt key nonce aad c t m = some (ccmCtr key nonce c) := if_pos h

theorem ccmDecrypt_of_mic_ne {key nonce aad c t : Bytes} {m : Nat}
    (h : ccmMic key nonce aad (ccmCtr key nonce c) m ≠ t) : ccmDecrypt key nonce aad c t m = none := if_neg h

/-- The first law of R203, on the two parts of what encryption gives: counter mode recovers the message, and the MIC
over it is the MIC that was sent. -/
theorem ccmDecrypt_ccmCtr_ccmMic (key nonce aad msg : Bytes) (m : Nat) :
    ccmDecrypt key nonce aad (ccmCtr key nonce msg) (ccmMic key nonce aad msg m) m = some msg := by
  rw [ccmDecrypt_of_mic_eq (by rw [ccmCtr_ccmCtr]), ccmCtr_ccmCtr]

/-! ### Parts of a region -/

/-- A part of a region read is the region of that part (00_scope.md R8, R10). -/
theorem Buf.slice_read (b : Buf) (off : Nat) {n i k : Nat} (h : i + k ≤ n) :
    slice (b.read off n) i k = b.read (off + i) k := by
  apply List.ext_getElem
  · rw [slice_length, Buf.read_length, Buf.read_length]
    omega
  · intro j _ _
    simp only [slice, List.getElem_take, List.getElem_drop, Buf.read_getElem, Nat.add_assoc]

/-- A region is read as its first `n` bytes and then the `k` after them. -/
theorem Buf.read_add (b : Buf) (off n k : Nat) : b.read off (n + k) = b.read off n ++ b.read (off + n) k := by
  simp only [Buf.read, List.range_add, List.map_append, List.map_map, Function.comp_def, Nat.add_assoc]

end Sys2Proof.Machine

/-! ## Rules: what a completion without an error left in BUF -/

namespace Sys2Proof.Safety.CompletesOk

open Sys2Proof.Machine

variable {s t : State} {off : Nat}

/-- An output of two parts stands in BUF as the one and then the other. -/
theorem read_parts {as bs : Bytes} {n k : Nat} (h : CompletesOk s t off (as ++ bs)) (has : as.length = n)
    (hbs : bs.length = k) : t.buf.read off n = as ∧ t.buf.read (off + n) k = bs := by
  subst has hbs
  have hout := h.output
  rw [List.length_append, Buf.read_add] at hout
  exact List.append_inj hout (Buf.read_length _ _ _)

/-- A region apart from the output, or an empty one, reads as before the command (20_memory.md R73). -/
theorem read_apart {bs : Bytes} {o n : Nat} (h : CompletesOk s t off bs) (hapart : n = 0 ∨ Apart off bs.length o n) :
    t.buf.read o n = s.buf.read o n :=
  Buf.read_congr fun k _ _ => h.elsewhere k (by omega)

end Sys2Proof.Safety.CompletesOk

/-! ## Rules: what CCM_ENC and CCM_DEC do in each case -/

namespace Sys2Proof.Machine

open Sys2Proof.Safety

/-! ### The parameter checks (44_ccm.md R200) -/

theorem ccmCheck_legal {m a : Nat} (hm : m = 4 ∨ m = 8) (ha : a < 0xFF00) : ccmCheck m a = none := by
  rw [ccmCheck, if_neg (by omega), if_neg (by omega), if_neg (by omega)]

theorem ccmCheck_micTooLarge {m : Nat} (a : Nat) (hm : 16 < m) : ccmCheck m a = some .micTooLarge := by
  rw [ccmCheck, if_pos hm]

theorem ccmCheck_micUnsupported {m : Nat} (a : Nat) (hle : m ≤ 16) (h4 : m ≠ 4) (h8 : m ≠ 8) :
    ccmCheck m a = some .micUnsupported := by
  rw [ccmCheck, if_neg (by omega), if_pos ⟨h4, h8⟩]

theorem ccmCheck_aadTooLong {m a : Nat} (hm : m = 4 ∨ m = 8) (ha : 0xFF00 ≤ a) : ccmCheck m a = some .aadTooLong := by
  rw [ccmCheck, if_neg (by omega), if_neg (by omega), if_pos ha]

theorem State.ifCcmOk_of_check_none {s t : State} {m a : Nat} (h : ccmCheck m a = none) : s.ifCcmOk m a t = t := by
  rw [State.ifCcmOk, h]

theorem State.ifCcmOk_of_check_some {s t : State} {m a : Nat} {d : ErrDetail} (h : ccmCheck m a = some d) :
    s.ifCcmOk m a t = s.raiseInvalid d := by
  rw [State.ifCcmOk, h]

/-! ### CCM_ENC and CCM_DEC (44_ccm.md R204, R205) -/

/-- The regions the two commands check, with `n` bytes of input and `k` bytes of output. -/
def Snapshot.ccmRegions (p : Snapshot) (n k : Nat) : List Region :=
  [p.keyRegion, p.nonceRegion, p.aadRegion, p.msgRegion n, p.outRegion k]

theorem ccmRegions_fit_iff (cfg : Config) (p : Snapshot) (n k : Nat) :
    (∀ r ∈ p.ccmRegions n k, Fits cfg r.off r.len) ↔
      Fits cfg p.regs.keyOff.toNat 16 ∧ Fits cfg p.regs.nonceOff.toNat 13 ∧
        Fits cfg p.regs.aadOff.toNat p.regs.aadLen.toNat ∧ Fits cfg p.regs.msgOff.toNat n ∧
        Fits cfg p.regs.outOff.toNat k :=
  List.forall_iff_forall_mem.symm

/-- A failed check of R200 ends both commands with its detail. -/
theorem exec_ccm_of_check_some {m : Nat} {s : State} {d : ErrDetail}
    (h : ccmCheck m s.snapshot.aadRegion.len = some d) :
    exec (.ccmEnc m) s = .next (s.raiseInvalid d) ∧ exec (.ccmDec m) s = .next (s.raiseInvalid d) :=
  ⟨congrArg Host.Outcome.next (State.ifCcmOk_of_check_some h), congrArg Host.Outcome.next (State.ifCcmOk_of_check_some h)⟩

/-- Past the checks of R200 CCM_ENC only checks its ranges and writes the ciphertext and the MIC. -/
theorem exec_ccmEnc_of_check_none {m : Nat} {s : State} (h : ccmCheck m s.snapshot.aadRegion.len = none) :
    exec (.ccmEnc m) s = .next (s.ifInRange (s.snapshot.ccmRegions s.snapshot.msgLen (s.snapshot.msgLen + m))
      (s.succeed s.snapshot.regs.outOff.toNat
        (ccmEncrypt (s.snapshot.bytes s.snapshot.keyRegion) (s.snapshot.bytes s.snapshot.nonceRegion)
          (s.snapshot.bytes s.snapshot.aadRegion) (s.snapshot.bytes (s.snapshot.msgRegion s.snapshot.msgLen)) m))) :=
  congrArg Host.Outcome.next (State.ifCcmOk_of_check_none h)

/-- A CCM_ENC that completes without an error passed the checks of R200 and of its ranges, and wrote its output. -/
theorem ccmEnc_of_ok {m : Nat} {s t : State} (ht : exec (.ccmEnc m) s = .next t) (hok : t.errCode = .ok) :
    ccmCheck m s.snapshot.aadRegion.len = none ∧
      (∀ r ∈ s.snapshot.ccmRegions s.snapshot.msgLen (s.snapshot.msgLen + m), Fits s.cfg r.off r.len) ∧
      CompletesOk s t s.snapshot.regs.outOff.toNat
        (ccmEncrypt (s.snapshot.bytes s.snapshot.keyRegion) (s.snapshot.bytes s.snapshot.nonceRegion)
          (s.snapshot.bytes s.snapshot.aadRegion) (s.snapshot.bytes (s.snapshot.msgRegion s.snapshot.msgLen)) m) := by
  cases hcheck : ccmCheck m s.snapshot.aadRegion.len with
  | some d =>
    obtain rfl := Host.Outcome.next.inj ((exec_ccm_of_check_some hcheck).1.symm.trans ht)
    exact absurd hok nofun
  | none =>
    obtain rfl := Host.Outcome.next.inj ((exec_ccmEnc_of_check_none hcheck).symm.trans ht)
    have hfits := State.fits_of_ifInRange_ok hok
    exact ⟨rfl, hfits, completesOk_of_fits hfits _ _⟩

/-- What CCM_DEC recovers, with the ciphertext and the received MIC as the two regions they stand in (R205). -/
theorem ccmDecResult_eq (m : Nat) (p : Snapshot) :
    ccmDecResult m p = ccmDecrypt (p.bytes p.keyRegion) (p.bytes p.nonceRegion) (p.bytes p.aadRegion)
      (p.buf.read p.regs.msgOff.toNat p.msgLen) (p.buf.read (p.regs.msgOff.toNat + p.msgLen) m) m := by
  simp only [ccmDecResult, Snapshot.bytes, Snapshot.msgRegion]
  rw [Buf.slice_read _ _ (by omega), Buf.slice_read _ _ le_rfl, Nat.add_zero]

/-- Past the checks of R200 CCM_DEC only checks its ranges and ends as what it recovers says: the plaintext written, or
AuthenticationFailed. -/
theorem exec_ccmDec_of_check_none {m : Nat} {s : State} (h : ccmCheck m s.snapshot.aadRegion.len = none) :
    exec (.ccmDec m) s = .next (s.ifInRange (s.snapshot.ccmRegions (s.snapshot.msgLen + m) s.snapshot.msgLen)
      ((ccmDecResult m s.snapshot).elim (s.raiseAuthenticationFailed s.snapshot.regs.outOff.toNat s.snapshot.msgLen)
        (s.succeed s.snapshot.regs.outOff.toNat))) := by
  refine congrArg Host.Outcome.next ((State.ifCcmOk_of_check_none h).trans (congrArg (State.ifInRange s _) ?_))
  cases ccmDecResult m s.snapshot <;> rfl

/-- CCM_DEC of an input that verifies completes with the plaintext. -/
theorem ccmDec_completesOk {m : Nat} {s : State} {plain : Bytes}
    (hcheck : ccmCheck m s.snapshot.aadRegion.len = none)
    (hfits : ∀ r ∈ s.snapshot.ccmRegions (s.snapshot.msgLen + m) s.snapshot.msgLen, Fits s.cfg r.off r.len)
    (hresult : ccmDecResult m s.snapshot = some plain) :
    ∃ t, exec (.ccmDec m) s = .next t ∧ CompletesOk s t s.snapshot.regs.outOff.toNat plain := by
  refine ⟨_, exec_ccmDec_of_check_none hcheck, ?_⟩
  rw [hresult]
  exact completesOk_of_fits hfits _ _

/-- CCM_DEC of an input that does not verify completes with AuthenticationFailed. -/
theorem ccmDec_completesUnauthentic {m : Nat} {s : State} (hcheck : ccmCheck m s.snapshot.aadRegion.len = none)
    (hfits : ∀ r ∈ s.snapshot.ccmRegions (s.snapshot.msgLen + m) s.snapshot.msgLen, Fits s.cfg r.off r.len)
    (hresult : ccmDecResult m s.snapshot = none) :
    ∃ t, exec (.ccmDec m) s = .next t ∧
      CompletesUnauthentic s t s.snapshot.regs.outOff.toNat s.snapshot.msgLen := by
  refine ⟨_, exec_ccmDec_of_check_none hcheck, ?_⟩
  rw [hresult, State.ifInRange_pos fun r hr => inRange_iff.mpr (hfits r hr)]
  exact completesUnauthentic_raise _ _ _

/-! ### A CCM_DEC of what a CCM_ENC left -/

/-- Under the registers of `p` with its output as the input, a CCM_DEC names the key, the nonce, the AAD and the message
length of `p`, and the output region of `p` as its input. -/
theorem regions_of_output_as_input {p q : Snapshot} {out : Half}
    (h : q.regs = { p.regs with msgOff := p.regs.outOff, outOff := out }) :
    q.keyRegion = p.keyRegion ∧ q.nonceRegion = p.nonceRegion ∧ q.aadRegion = p.aadRegion ∧ q.msgLen = p.msgLen ∧
      q.regs.msgOff = p.regs.outOff ∧ ∀ n, q.msgRegion n = p.outRegion n := by
  obtain ⟨cmd, regs, buf⟩ := q
  obtain rfl := h
  exact ⟨rfl, rfl, rfl, rfl, rfl, fun _ => rfl⟩

/-- The first law of R203 in BUF: where a CCM_ENC over the snapshot `p` wrote its output, apart from the key, the nonce and
the AAD, a CCM_DEC of that output recovers the message. -/
theorem ccmDecResult_of_ccmEncrypt {m : Nat} {s t : State} {p q : Snapshot} {out : Half} (hm : m ≤ 16)
    (henc : CompletesOk s t p.regs.outOff.toNat (ccmEncrypt (p.bytes p.keyRegion) (p.bytes p.nonceRegion)
      (p.bytes p.aadRegion) (p.bytes (p.msgRegion p.msgLen)) m))
    (hbuf : p.buf = s.buf) (hqbuf : q.buf = t.buf)
    (hqregs : q.regs = { p.regs with msgOff := p.regs.outOff, outOff := out })
    (hapart : [p.keyRegion, p.nonceRegion, p.aadRegion].Forall fun r =>
      r.len = 0 ∨ Apart p.regs.outOff.toNat (p.msgLen + m) r.off r.len) :
    ccmDecResult m q = some (p.bytes (p.msgRegion p.msgLen)) := by
  have hmsg : (p.bytes (p.msgRegion p.msgLen)).length = p.msgLen := Buf.read_length _ _ _
  have hkept : [p.keyRegion, p.nonceRegion, p.aadRegion].Forall fun r => q.bytes r = p.bytes r := by
    refine hapart.imp fun r hr => ?_
    rw [Snapshot.bytes, Snapshot.bytes, hqbuf, hbuf]
    refine henc.read_apart ?_
    rwa [ccmEncrypt_length _ _ _ _ _ hm, hmsg]
  obtain ⟨hkeyKept, hnonceKept, haadKept⟩ := hkept
  obtain ⟨hcipher, hmic⟩ := henc.read_parts ((ccmCtr_length _ _ _).trans hmsg) (ccmMic_length _ _ _ _ _ hm)
  obtain ⟨hkey, hnonce, haad, hmsgLen, hmsgOff, -⟩ := regions_of_output_as_input hqregs
  rw [ccmDecResult_eq, hkey, hnonce, haad, hmsgLen, hmsgOff, hkeyKept, hnonceKept, haadKept, hqbuf, hcipher, hmic,
    ccmDecrypt_ccmCtr_ccmMic]

end Sys2Proof.Machine

/-! ## The obligations of the CCM family -/

namespace Sys2Proof.Machine

open Sys2Proof.Safety

/-- Settles O55: `ccmCtr_ccmCtr`. -/
theorem counterModeIsItsOwnInverse : Obligations.CounterModeIsItsOwnInverse := ccmCtr_ccmCtr

/-- Settles O56: the message's length cuts what encryption gives into the ciphertext and the MIC. -/
theorem ccmDecryptOfEncryptIsThePlaintext : Obligations.CcmDecryptOfEncryptIsThePlaintext := by
  intro key nonce aad msg m _ out
  have hlen : (ccmCtr key nonce msg).length = msg.length := ccmCtr_length key nonce msg
  have htake : out.take msg.length = ccmCtr key nonce msg := List.take_left' hlen
  have hdrop : out.drop msg.length = ccmMic key nonce aad msg m := List.drop_left' hlen
  rw [htake, hdrop, ccmDecrypt_ccmCtr_ccmMic]

/-- Settles O37: each clause names the first check of R200 that fails, so both commands end with its detail. -/
theorem ccmChecksItsParametersInOrder : Obligations.CcmChecksItsParametersInOrder := by
  intro s p m hp
  obtain rfl := State.snapshot_of_pending hp
  obtain ⟨t, ht, -⟩ := exec_ends (.ccmEnc m) s
  obtain ⟨u, hu, -⟩ := exec_ends (.ccmDec m) s
  have hinvalid : ∀ d, ccmCheck m s.snapshot.aadRegion.len = some d →
      CompletesInvalid s t d ∧ CompletesInvalid s u d := by
    intro d hcheck
    obtain ⟨henc, hdec⟩ := exec_ccm_of_check_some hcheck
    obtain rfl := Host.Outcome.next.inj (henc.symm.trans ht)
    obtain rfl := Host.Outcome.next.inj (hdec.symm.trans hu)
    exact ⟨completesInvalid_raiseInvalid s d, completesInvalid_raiseInvalid s d⟩
  exact ⟨t, u, ht, hu, fun hm => hinvalid _ (ccmCheck_micTooLarge _ hm),
    fun hle h4 h8 => hinvalid _ (ccmCheck_micUnsupported _ hle h4 h8),
    fun hm haad => hinvalid _ (ccmCheck_aadTooLong hm haad)⟩

/-- Settles O35: the parameters are legal and the five regions in range, so CCM_ENC writes its output. -/
theorem ccmEncWritesCiphertextAndMic : Obligations.CcmEncWritesCiphertextAndMic := by
  intro s p m hp hm haad hkey hnonce hAad hmsg hout key nonce aad msg
  obtain rfl := State.snapshot_of_pending hp
  exact ⟨_, exec_ccmEnc_of_check_none (ccmCheck_legal hm haad),
    completesOk_of_fits ((ccmRegions_fit_iff _ _ _ _).mpr ⟨hkey, hnonce, hAad, hmsg, hout⟩) _ _⟩

/-- Settles O36: the recovered plaintext verifies exactly when its MIC equals the received one. -/
theorem ccmDecVerifiesAndDecrypts : Obligations.CcmDecVerifiesAndDecrypts := by
  intro s p m hp hm haad hkey hnonce hAad hmsg hout key nonce aad plain mic
  obtain rfl := State.snapshot_of_pending hp
  have hcheck := ccmCheck_legal hm haad
  have hfits := (ccmRegions_fit_iff _ _ _ _).mpr ⟨hkey, hnonce, hAad, hmsg, hout⟩
  have hresult := ccmDecResult_eq m s.snapshot
  exact ⟨fun hmic => ccmDec_completesOk hcheck hfits (hresult.trans (ccmDecrypt_of_mic_eq hmic)),
    fun hmic => ccmDec_completesUnauthentic hcheck hfits (hresult.trans (ccmDecrypt_of_mic_ne hmic))⟩

/-- Settles O57: the CCM_ENC passed its checks and left its output in BUF (`ccmEnc_of_ok`), so the CCM_DEC passes the same
checks and recovers the message (`ccmDecResult_of_ccmEncrypt`). -/
theorem ccmDecAfterCcmEncRestoresThePlaintext : Obligations.CcmDecAfterCcmEncRestoresThePlaintext := by
  intro m s t u p q hm hp hbuf ht hok hkeyApart hnonceApart haadApart hq hcfg hqbuf hqregs hqout
  obtain ⟨hcheck, hfits, henc⟩ := ccmEnc_of_ok ht hok
  rw [State.snapshot_of_pending hp] at hcheck hfits henc
  have hresult : ccmDecResult m q = some (p.bytes (p.msgRegion p.msgLen)) :=
    ccmDecResult_of_ccmEncrypt (by omega) henc hbuf hqbuf hqregs
      ⟨.inr hkeyApart, .inr hnonceApart, haadApart.imp_left (congrArg BitVec.toNat)⟩
  obtain ⟨hkey, hnonce, haad, hmsgLen, -, hinput⟩ := regions_of_output_as_input hqregs
  have hqfits : ∀ r ∈ q.ccmRegions (p.msgLen + m) p.msgLen, Fits u.cfg r.off r.len := by
    obtain ⟨hkeyFits, hnonceFits, haadFits, -, houtFits⟩ := (ccmRegions_fit_iff _ _ _ _).mp hfits
    rw [hcfg] at hqout ⊢
    rw [Snapshot.ccmRegions, hkey, hnonce, haad, hinput]
    exact List.forall_iff_forall_mem.mp ⟨hkeyFits, hnonceFits, haadFits, houtFits, hqout⟩
  obtain rfl := State.snapshot_of_pending hq
  rw [← haad] at hcheck
  rw [← hmsgLen] at hqfits
  exact ccmDec_completesOk hcheck hqfits hresult

end Sys2Proof.Machine

/-! # The nonce family (45_nonce.md): NONCE_NET, NONCE_PROXY, NONCE_APP and NONCE_DEV -/

/-! ## Rules: the bytes of a word, big-endian, and the nonces byte by byte -/

namespace Sys2Proof.Machine

open Sys2Proof.Safety

/-! ### The bytes of a register, high byte first (00_scope.md R8, R9) -/

/-- Byte `i` of a word, byte 0 the least significant. -/
def wordByte (v : Word) (i : Nat) : Byte := (v >>> (8 * i)).setWidth 8

/-- A byte cut from a number is byte `i` of `v` when the number has that byte of `v` as its low eight bits. -/
theorem ofNat_eq_wordByte {n : Nat} {v : Word} (i : Nat) (h : n % 2 ^ 8 = v.toNat / 2 ^ (8 * i) % 2 ^ 8) :
    BitVec.ofNat 8 n = wordByte v i := by
  apply BitVec.eq_of_toNat_eq
  rw [wordByte, BitVec.toNat_ofNat, BitVec.toNat_setWidth, BitVec.toNat_ushiftRight, Nat.shiftRight_eq_div_pow, h]

/-- The byte order of SEQ and IV_INDEX in a nonce. -/
theorem be32_toNat (v : Word) : be32 v.toNat = [wordByte v 3, wordByte v 2, wordByte v 1, wordByte v 0] := by
  rw [be32, ofNat_eq_wordByte 3 rfl, ofNat_eq_wordByte 2 rfl, ofNat_eq_wordByte 1 rfl,
    ofNat_eq_wordByte 0 (by rw [Nat.mul_zero, Nat.pow_zero, Nat.div_one])]

/-- SRC is the low half of ADDR (10_state.md R38). -/
theorem be16_src (p : Snapshot) : be16 p.src = [wordByte p.regs.addr 1, wordByte p.regs.addr 0] := by
  rw [be16, Snapshot.src, ofNat_eq_wordByte (v := p.regs.addr) 1 (by omega),
    ofNat_eq_wordByte (v := p.regs.addr) 0 (by omega)]

/-- DST is the high half of ADDR (10_state.md R38). -/
theorem be16_dst (p : Snapshot) : be16 p.dst = [wordByte p.regs.addr 3, wordByte p.regs.addr 2] := by
  rw [be16, Snapshot.dst, ofNat_eq_wordByte (v := p.regs.addr) 3 (by omega),
    ofNat_eq_wordByte (v := p.regs.addr) 2 (by omega)]

/-- Another bit in the place of bit 31 reaches the high byte only (R224). -/
theorem be32_replace_bit31 (b : Nat) (v : Word) : be32 (b * 2 ^ 31 + v.toNat % 2 ^ 31) =
    [BitVec.ofNat 8 (b * 128 + v.toNat / 2 ^ 24 % 128), wordByte v 2, wordByte v 1, wordByte v 0] := by
  generalize hn : b * 2 ^ 31 + v.toNat % 2 ^ 31 = n
  have hhigh : n / 2 ^ 24 = b * 128 + v.toNat / 2 ^ 24 % 128 := by omega
  have hbyte2 : n / 2 ^ 16 % 2 ^ 8 = v.toNat / 2 ^ (8 * 2) % 2 ^ 8 := by omega
  have hbyte1 : n / 2 ^ 8 % 2 ^ 8 = v.toNat / 2 ^ (8 * 1) % 2 ^ 8 := by omega
  have hbyte0 : n % 2 ^ 8 = v.toNat / 2 ^ (8 * 0) % 2 ^ 8 := by omega
  rw [be32, hhigh, ofNat_eq_wordByte 2 hbyte2, ofNat_eq_wordByte 1 hbyte1, ofNat_eq_wordByte 0 hbyte0]

/-! ### The nonces (45_nonce.md R222 to R224) -/

/-- The shared layout over a 7-byte header read from BUF: H[2] to H[6] are copied (R222, R223). -/
theorem pduNonce_read (tag byte1 : Byte) (b : Buf) (off : Nat) (iv : Word) :
    pduNonce tag byte1 (b.read off 7) iv.toNat =
      [tag, byte1, b.get (off + 2), b.get (off + 3), b.get (off + 4), b.get (off + 5), b.get (off + 6), 0x00, 0x00,
        wordByte iv 3, wordByte iv 2, wordByte iv 1, wordByte iv 0] := by
  rw [pduNonce, Buf.slice_read _ _ (by omega), be32_toNat]
  rfl

/-- The proxy nonce is the shared layout, its tag and byte 1 chosen by the two parameters (R223). -/
theorem nonceProxy_eq_pduNonce (cfg : Config) (h : Bytes) (iv : Nat) :
    nonceProxy cfg h iv =
      pduNonce (if cfg.hasProxyNonce then 0x03 else 0x00)
        (if cfg.hasProxyNonce && cfg.proxyNoncePadByte1 then 0x00 else byteAt h 1) h iv := by
  rcases cfg with ⟨_, hasProxy, padByte1⟩
  cases hasProxy with
  | false => rfl
  | true =>
    cases padByte1 with
    | false => rfl
    | true => rfl

/-- The application nonce of the pending command's registers (R224). -/
theorem nonceAppl_regs (tag : Byte) (p : Snapshot) (aszmic : Bool) :
    nonceAppl tag p.regs.seq.toNat p.src p.dst p.regs.ivIndex.toNat aszmic =
      [tag, BitVec.ofNat 8 (aszmic.toNat * 128 + p.regs.seq.toNat / 2 ^ 24 % 128), wordByte p.regs.seq 2,
        wordByte p.regs.seq 1, wordByte p.regs.seq 0, wordByte p.regs.addr 1, wordByte p.regs.addr 0,
        wordByte p.regs.addr 3, wordByte p.regs.addr 2, wordByte p.regs.ivIndex 3, wordByte p.regs.ivIndex 2,
        wordByte p.regs.ivIndex 1, wordByte p.regs.ivIndex 0] := by
  rw [nonceAppl, be32_replace_bit31, be16_src, be16_dst, be32_toNat]
  rfl

/-- `exec_completesOk` for an output that is known in another form. -/
theorem exec_completesOk_of_eq {i : Instr} {s : State} {l : List Region} {off : Nat} {bs out : Bytes}
    (hexec : exec i s = .next (s.ifInRange l (s.succeed off bs))) (hfits : l.Forall fun r => Fits s.cfg r.off r.len)
    (hout : bs = out) : ∃ t, exec i s = .next t ∧ CompletesOk s t off out :=
  hout ▸ exec_completesOk hexec hfits

end Sys2Proof.Machine

/-! ## The obligations of the nonce family -/

namespace Sys2Proof.Machine

open Sys2Proof.Safety

/-- Settles O38: the network nonce is the shared layout with tag 00 and byte 1 = H[1]. -/
theorem nonceNetBuildsTheNetworkNonce : Obligations.NonceNetBuildsTheNetworkNonce := by
  intro s p hp hmsg hout h iv
  obtain rfl := State.snapshot_of_pending hp
  exact exec_completesOk_of_eq (i := .nonceNet) rfl ⟨hmsg, hout⟩ (pduNonce_read 0x00 (h 1) _ _ _)

/-- Settles O39: `nonceProxy_eq_pduNonce` chooses the tag and byte 1, and the rest is the shared layout. -/
theorem nonceProxyFollowsItsParameters : Obligations.NonceProxyFollowsItsParameters := by
  intro s p hp hmsg hout h iv tag byte1
  obtain rfl := State.snapshot_of_pending hp
  exact exec_completesOk_of_eq (i := .nonceProxy) rfl ⟨hmsg, hout⟩
    ((nonceProxy_eq_pduNonce _ _ _).trans (pduNonce_read tag byte1 _ _ _))

/-- Settles O40: the two commands differ in the tag of `nonceAppl_regs` only. -/
theorem nonceAppAndDevBuildTheApplicationNonces : Obligations.NonceAppAndDevBuildTheApplicationNonces := by
  intro s p aszmic hp hout seq0 seq addr iv
  obtain rfl := State.snapshot_of_pending hp
  exact ⟨exec_completesOk_of_eq (i := .nonceApp aszmic) rfl hout (nonceAppl_regs 0x01 _ aszmic),
    exec_completesOk_of_eq (i := .nonceDev aszmic) rfl hout (nonceAppl_regs 0x02 _ aszmic)⟩

end Sys2Proof.Machine

/-! # The exceptions family (60_exceptions.md): the check procedure, the codes, BUSY and the interrupt level -/

/-! ## Rules: the order of the checks, how a command can end, and what raises BUSY -/

namespace Sys2Proof.Machine

open Sys2Proof.Safety

/-! ### The first checks of R245 are the decoder's -/

theorem requireZero_add (m n : Nat) (i : Instr) : requireZero [m, n] i = requireZero [m + n] i := by
  have hzero : (m = 0 ∧ n = 0) = (m + n = 0) := propext Nat.add_eq_zero_iff.symm
  simp only [requireZero, List.all_cons, List.all_nil, Bool.and_true, Bool.and_eq_true, beq_iff_eq, hzero]

/-- The decoder of 30_encoding.md R103 by the table that R245 reads: the opcode names a command, then no other bit is
set. -/
theorem decode_eq_commandOf (w : Word) :
    decode w = (commandOf w).elim (.error .badOpcode) (requireZero [strayBits w (bits w 7 0)]) := by
  unfold decode
  split
  case h_15 =>
    have hnone : commandOf w = none := by simp_all [commandOf, List.lookup_eq_none_iff]
    rw [hnone, Option.elim_none]
  all_goals
    rename_i hop
    simp only [commandOf, strayBits, hop, requireZero_add]
    rfl

/-- A decoded word passes the first two checks of R245. -/
theorem commandOf_of_decode_ok {w : Word} {i : Instr} (h : decode w = .ok i) :
    commandOf w = some i ∧ strayBits w (bits w 7 0) = 0 := by
  rw [decode_eq_commandOf] at h
  cases hcmd : commandOf w with
  | none =>
    rw [hcmd] at h
    cases h
  | some j =>
    rw [hcmd, Option.elim_some, requireZero_singleton] at h
    obtain ⟨hstray, rfl⟩ := h
    exact ⟨rfl, hstray⟩

/-- A word that is no command fails one of the first two checks of R245, the one its error names. -/
theorem commandOf_of_decode_error {w : Word} {e : DecodeError} (h : decode w = .error e) :
    (commandOf w = none ∧ e = .badOpcode) ∨
    ∃ i, commandOf w = some i ∧ strayBits w (bits w 7 0) ≠ 0 ∧ e = .rsvdBits := by
  rw [decode_eq_commandOf] at h
  cases hcmd : commandOf w with
  | none =>
    rw [hcmd] at h
    cases h
    exact .inl ⟨rfl, rfl⟩
  | some i =>
    rw [hcmd, Option.elim_some, requireZero_error] at h
    obtain ⟨⟨n, hn, hne⟩, rfl⟩ := h
    obtain rfl := List.mem_singleton.mp hn
    exact .inr ⟨i, rfl, hne, rfl⟩

theorem firstFailure_of_decode_error {cfg : Config} {p : Snapshot} {e : DecodeError}
    (h : decode p.cmdWord = .error e) : firstFailure cfg p = some (decodeDetail e) := by
  unfold firstFailure
  rw [← Snapshot.cmdWord]
  rcases commandOf_of_decode_error h with ⟨hcmd, rfl⟩ | ⟨i, hcmd, hstray, rfl⟩
  · simp only [hcmd, decodeDetail]
  · simp only [hcmd]
    exact if_pos hstray

/-! ### The checks of R245 on a command that decodes -/

/-- The check that a command's own fields can fail: those of CCM (44_ccm.md R200), or the bound on SEGCNT (42_cmac.md
R146). -/
def Snapshot.paramFailure (p : Snapshot) : Instr → Option ErrDetail
  | .ccmEnc m | .ccmDec m => ccmCheck m p.aadRegion.len
  | .cmac n => if 4 < n then some .segcnt else none
  | _ => none

/-- The regions of a command's row, those it reads and the one it writes (30_encoding.md R98). -/
def Snapshot.rowRegions (p : Snapshot) (i : Instr) : List Region := regionsRead p.regs i ++ [regionWritten p.regs i]

/-- The last check. -/
def Snapshot.rangeFailure (p : Snapshot) (cfg : Config) (i : Instr) : Option ErrDetail :=
  if (p.rowRegions i).all (inRange cfg) then none else some .range

/-- The checks left to a command that decodes, in the order of R245. -/
def Snapshot.commandFailure (p : Snapshot) (cfg : Config) (i : Instr) : Option ErrDetail :=
  (p.paramFailure i).or (p.rangeFailure cfg i)

/-- R245 checks the output region first and the commands check it last, which is the same: either gives RANGE. -/
theorem rangeFailure_eq (p : Snapshot) (cfg : Config) (i : Instr) :
    p.rangeFailure cfg i =
      if (regionWritten p.regs i :: regionsRead p.regs i).all (inRange cfg) then none else some .range := by
  have hperm : (p.rowRegions i).Perm (regionWritten p.regs i :: regionsRead p.regs i) := List.perm_append_singleton _ _
  rw [Snapshot.rangeFailure, hperm.all_eq]

/-- The checks of 44_ccm.md R200, followed by another, as R245 writes them for the two CCM opcodes. -/
theorem ccmCheck_or {op : Nat} (hop : op = 0x09 ∨ op = 0x0A) (m a : Nat) (rest : Option ErrDetail) :
    (ccmCheck m a).or rest =
      if (op = 0x09 ∨ op = 0x0A) ∧ 16 < m then some .micTooLarge
      else if (op = 0x09 ∨ op = 0x0A) ∧ m ≠ 4 ∧ m ≠ 8 then some .micUnsupported
      else if (op = 0x09 ∨ op = 0x0A) ∧ 0xFF00 ≤ a then some .aadTooLong
      else rest := by
  have hccm {c : Prop} : c ↔ (op = 0x09 ∨ op = 0x0A) ∧ c := (and_iff_right hop).symm
  simp only [ccmCheck, apply_ite (Option.or · rest), Option.some_or, Option.none_or]
  exact if_congr hccm rfl (if_congr hccm rfl (if_congr hccm rfl rfl))

/-- Past the decoder, R245 checks the command's own fields and then its regions. -/
theorem firstFailure_of_decode_ok {cfg : Config} {p : Snapshot} {i : Instr} (h : decode p.cmdWord = .ok i) :
    firstFailure cfg p = p.commandFailure cfg i := by
  obtain ⟨hcmd, hstray⟩ := commandOf_of_decode_ok h
  obtain ⟨hop, hmic, -, -, hseg, -⟩ := HoldsFields.of_decode h
  unfold firstFailure
  rw [← Snapshot.cmdWord]
  simp only [hcmd, ← rangeFailure_eq]
  rw [if_neg (not_not_intro hstray), hop, hmic, hseg, Snapshot.commandFailure]
  cases i with
  | ccmEnc m => exact (ccmCheck_or (.inl rfl) m p.aadRegion.len _).symm
  | ccmDec m => exact (ccmCheck_or (.inr rfl) m p.aadRegion.len _).symm
  | cmac n =>
    rw [Snapshot.paramFailure, apply_ite (Option.or · _)]
    simp [opcodeOf, segcntOf]
  | _ => rfl

/-! ### The checks a command makes are those of R245 -/

theorem ifInRange_rowRegions (s t : State) (i : Instr) :
    s.ifInRange (s.snapshot.rowRegions i) t = (s.snapshot.rangeFailure s.cfg i).elim t s.raiseInvalid := by
  rw [State.ifInRange, Snapshot.rangeFailure]
  split
  · rfl
  · rfl

theorem exec_of_paramFailure_some {s : State} {i : Instr} {d : ErrDetail} (h : s.snapshot.paramFailure i = some d) :
    exec i s = .next (s.raiseInvalid d) := by
  cases i with
  | cmac n =>
    obtain ⟨hn, hd⟩ := Option.ite_none_right_eq_some.mp h
    cases hd
    exact exec_cmac_of_gt s hn
  | ccmEnc m => exact (exec_ccm_of_check_some h).1
  | ccmDec m => exact (exec_ccm_of_check_some h).2
  | _ => cases h

/-- Past the checks of its fields a command only checks the regions of its row; what it then does raises no
InvalidParameters. -/
theorem exec_of_paramFailure_none {s : State} {i : Instr} (h : s.snapshot.paramFailure i = none) :
    ∃ t, exec i s = .next (s.ifInRange (s.snapshot.rowRegions i) t) ∧ t.errCode ≠ .invalidParameters := by
  rw [Snapshot.rowRegions, regionWritten_eq]
  cases i with
  | cmac n =>
    have hn : n ≤ 4 := Nat.not_lt.mp fun hlt => by simp [Snapshot.paramFailure, hlt] at h
    rw [regionsRead_cmac]
    exact ⟨_, exec_cmac_of_le s hn, nofun⟩
  | ccmEnc m =>
    rw [regionsRead_ccmEnc, outputLength, outputLength_msgLen]
    exact ⟨_, exec_ccmEnc_of_check_none h, nofun⟩
  | ccmDec m =>
    rw [regionsRead_ccmDec, outputLength, outputLength_msgLen]
    refine ⟨_, exec_ccmDec_of_check_none h, ?_⟩
    cases ccmDecResult m s.snapshot <;> nofun
  | _ =>
    simp only [regionsRead, regionAt_keyOff, regionAt_msgOff, regionBy_seg0, regionBy_seg1]
    exact ⟨_, rfl, nofun⟩

/-- The first check that fails ends the command with its detail. -/
theorem exec_of_commandFailure_some {s : State} {i : Instr} {d : ErrDetail}
    (h : s.snapshot.commandFailure s.cfg i = some d) : exec i s = .next (s.raiseInvalid d) := by
  rcases Option.or_eq_some_iff.mp h with hparam | ⟨hparam, hrange⟩
  · exact exec_of_paramFailure_some hparam
  · obtain ⟨t, ht, -⟩ := exec_of_paramFailure_none hparam
    rw [ht, ifInRange_rowRegions, hrange, Option.elim_some]

/-- A command that passes its checks does not end with InvalidParameters. -/
theorem exec_errCode_ne_invalidParameters {s t : State} {i : Instr}
    (h : s.snapshot.commandFailure s.cfg i = none) (ht : exec i s = .next t) : t.errCode ≠ .invalidParameters := by
  obtain ⟨hparam, hrange⟩ := Option.or_eq_none_iff.mp h
  obtain ⟨t', ht', hcode⟩ := exec_of_paramFailure_none hparam
  rw [ifInRange_rowRegions, hrange, Option.elim_none] at ht'
  obtain rfl := Host.Outcome.next.inj (ht'.symm.trans ht)
  exact hcode

/-! ### How a command and the engine's turn can end (R242 to R248) -/

/-- The codes of the three ends. -/
theorem EndsAs.codes {i : Instr} {s t : State} (h : EndsAs i s t) :
    (t.errCode = .invalidParameters ∧ t.errDetail ≠ .noDetail) ∨ (t.errCode = .ok ∧ t.errDetail = .noDetail) ∨
    ∃ m, i = .ccmDec m ∧ t.errCode = .authenticationFailed ∧ t.errDetail = .noDetail := by
  rcases h with ⟨d, hd, rfl⟩ | ⟨bs, -, -, rfl⟩ | ⟨m, rfl, -, rfl⟩
  · exact .inl ⟨rfl, hd⟩
  · exact .inr (.inl ⟨rfl, rfl⟩)
  · exact .inr (.inr ⟨m, rfl, rfl, rfl⟩)

theorem EndsAs.errCode_ne_cryptoEngineFailure {i : Instr} {s t : State} (h : EndsAs i s t) :
    t.errCode ≠ .cryptoEngineFailure := by
  rcases h.codes with ⟨hcode, -⟩ | ⟨hcode, -⟩ | ⟨m, -, hcode, -⟩
  all_goals
    rw [hcode]
    nofun

theorem engineTurn_of_decode_ok {s : State} {p : Snapshot} {i : Instr} (hp : s.pending = some p)
    (hd : decode p.cmdWord = .ok i) : engineTurn s = exec i s := by
  simp only [engineTurn, hp, hd]

/-- Whatever word is pending, the engine's turn completes it (R242). -/
theorem engineTurn_completes {s : State} {p : Snapshot} (hp : s.pending = some p) :
    ∃ t, engineTurn s = .next t ∧ CompletionFrame s t ∧ t.pending = none ∧ t.done = true := by
  cases hd : decode p.cmdWord with
  | ok i =>
    obtain ⟨t, ht, hends⟩ := exec_ends i s
    have hc := hends.changesOnly
    exact ⟨t, (engineTurn_of_decode_ok hp hd).trans ht, hc.frame, hc.idle, hc.done⟩
  | error e =>
    obtain ⟨t, ht, hc⟩ := engineTurn_of_decode_error hp hd
    exact ⟨t, ht, hc.frame, hc.idle, hc.done⟩

/-- The engine's turn ends idle, whether or not a command was pending (R242; log 2). -/
theorem engineTurn_ends_idle {s t : State} (h : engineTurn s = .next t) : t.busy = false := by
  cases hp : s.pending with
  | none =>
    rw [engineTurn_idle hp] at h
    cases h
    exact State.idle_iff.mpr hp
  | some p =>
    obtain ⟨t', ht', -, hidle, -⟩ := engineTurn_completes hp
    obtain rfl := Host.Outcome.next.inj (ht'.symm.trans h)
    exact State.idle_iff.mpr hidle

theorem engineTurn_errCode_ne_cryptoEngineFailure {s t : State} (h : engineTurn s = .next t)
    (hs : s.errCode ≠ .cryptoEngineFailure) : t.errCode ≠ .cryptoEngineFailure := by
  rcases engineTurn_cases s with ⟨-, heq⟩ | ⟨p, i, -, -, heq⟩ | ⟨p, e, -, -, heq⟩
  all_goals rw [heq] at h
  · cases h
    exact hs
  · exact (exec_cases h).errCode_ne_cryptoEngineFailure
  · cases h
    nofun

/-! ### What a host access does to ERRCODE and BUSY -/

/-- A host write sets ERRCODE only to 0, at a start (R241). -/
theorem State.writeReg_errCode (s : State) (r : Reg) (v : Word) :
    (s.writeReg r v).errCode = s.errCode ∨ (s.writeReg r v).errCode = .ok := by
  cases r with
  | cmd =>
    cases hgo : v.getLsbD 31 with
    | true =>
      rw [State.writeReg, s.writeCmd_start hgo]
      exact .inr rfl
    | false =>
      rw [State.writeReg, s.writeCmd_store hgo]
      exact .inl rfl
  | _ => exact .inl rfl

theorem HostEffect.errCode {s t : State} (h : HostEffect s t) : t.errCode = s.errCode ∨ t.errCode = .ok := by
  cases h with
  | regWritten _ r v => exact s.writeReg_errCode r v
  | _ => exact .inl rfl

/-- Of the register writes only one of CMD with GO = 1 starts a command (R241). -/
theorem State.writeReg_starts {s : State} {r : Reg} {v : Word} (hidle : s.busy = false)
    (hbusy : (s.writeReg r v).busy = true) : r = .cmd ∧ v.getLsbD 31 = true := by
  cases r with
  | cmd =>
    cases hgo : v.getLsbD 31 with
    | true => exact ⟨rfl, rfl⟩
    | false =>
      rw [State.writeReg, s.writeCmd_store hgo] at hbusy
      exact nomatch hidle.symm.trans hbusy
  | _ => exact nomatch hidle.symm.trans hbusy

/-- A write that leaves an idle engine busy is a 32-bit write of CMD with GO = 1 (R241). -/
theorem busWrite_starts {s t : State} {off bits : Nat} {v : Word} (hidle : s.busy = false)
    (ht : busWrite s off bits v = .next t) (hbusy : t.busy = true) :
    off = 0x004 ∧ bits = 32 ∧ v.getLsbD 31 = true := by
  cases hs : supportedAccess off bits with
  | false =>
    rw [busWrite_refused hs] at ht
    cases ht
  | true =>
    rw [busWrite_idle hs hidle] at ht
    obtain rfl := Host.Outcome.next.inj ht
    by_cases hlow : off < Config.bufBase
    · rw [if_pos hlow, State.writeRegOffset] at hbusy
      cases hr : regAt off with
      | none =>
        simp only [hr] at hbusy
        exact nomatch hidle.symm.trans hbusy
      | some r =>
        simp only [hr] at hbusy
        obtain ⟨rfl, hgo⟩ := State.writeReg_starts hidle hbusy
        obtain rfl := regAt_some hr
        exact ⟨rfl, width_of_supported_reg hs, hgo⟩
    · rw [if_neg hlow] at hbusy
      exact nomatch hidle.symm.trans hbusy

/-- A read neither starts nor ends a command (20_memory.md R67). -/
theorem hostAccess_read_busy {s t : State} {addr bits : Nat} (ht : hostAccess s (.read addr bits) = .next t) :
    t.busy = s.busy := by
  cases hw : windowOffset addr with
  | none =>
    rw [hostAccess_read_outside s bits hw] at ht
    cases ht
  | some off =>
    simp only [hostAccess, hw] at ht
    cases hs : supportedAccess off bits with
    | false =>
      rw [busRead_refused hs] at ht
      cases ht
    | true =>
      obtain ⟨v, d, heq, -⟩ := busRead_supported s hs
      obtain rfl := Host.Outcome.next.inj (heq.symm.trans ht)
      rfl

/-- An access that leaves an idle engine busy is a 32-bit write of CMD with GO = 1 (R240, R241). -/
theorem hostAccess_starts {s t : State} {a : Access} (hidle : s.busy = false) (ht : hostAccess s a = .next t)
    (hbusy : t.busy = true) :
    ∃ addr v, a = .write addr 32 v ∧ windowOffset addr = some 0x004 ∧ v.getLsbD 31 = true := by
  cases a with
  | read addr bits => exact nomatch ((hostAccess_read_busy ht).trans hidle).symm.trans hbusy
  | write addr bits v =>
    cases hw : windowOffset addr with
    | none =>
      rw [hostAccess_write_outside s bits v hw] at ht
      cases ht
    | some off =>
      simp only [hostAccess, hw] at ht
      obtain ⟨rfl, rfl, hgo⟩ := busWrite_starts hidle ht hbusy
      exact ⟨addr, v, rfl, hw, hgo⟩

/-- No host access ends a pending command (R240, R262): each effect it can have while busy leaves the snapshot. -/
theorem hostAccess_keeps_busy {s t : State} {a : Access} (hbusy : s.busy = true) (ht : hostAccess s a = .next t) :
    t.busy = true := by
  obtain ⟨hpending, -⟩ := hostCannotDisturbAPendingCommand s t a hbusy ht
  rw [State.busy_eq, hpending, ← State.busy_eq, hbusy]

end Sys2Proof.Machine

/-! ## The obligations of the exceptions family -/

namespace Sys2Proof.Machine

open Sys2Proof.Safety

/-- Settles O8: `step_engine` and `step_unscheduled`, and `engineTurn_of_decode_ok` on either state. -/
theorem stepRunsTheDecodedCommand : Obligations.StepRunsTheDecodedCommand := by
  refine fun s => ⟨step_unscheduled, fun rest => step_engine, fun p i hp hd => ⟨fun hs => ?_, fun rest hs => ?_⟩⟩
  · rw [step_unscheduled hs, engineTurn_of_decode_ok hp hd]
  · have hlive : ({ s with schedule := rest } : State).pending = some p := hp
    rw [step_engine hs, engineTurn_of_decode_ok hlive hd]

/-- Settles O41: a word that is no command fails a check of the decoder, and a command fails the first of its own checks
or ends without InvalidParameters. -/
theorem engineReportsTheFirstFailedCheck : Obligations.EngineReportsTheFirstFailedCheck := by
  intro s p hp
  cases hd : decode p.cmdWord with
  | error e =>
    rw [firstFailure_of_decode_error hd]
    exact ⟨fun d h => Option.some.inj h ▸ engineTurn_of_decode_error hp hd, nofun⟩
  | ok i =>
    rw [firstFailure_of_decode_ok hd, engineTurn_of_decode_ok hp hd]
    have hop := (HoldsFields.of_decode hd).opcode
    obtain rfl := State.snapshot_of_pending hp
    refine ⟨fun d h => ⟨_, exec_of_commandFailure_some h, completesInvalid_raiseInvalid s d⟩, fun h => ?_⟩
    obtain ⟨t, ht, hends⟩ := exec_ends i s
    have hc := hends.changesOnly
    refine ⟨t, ht, hc.idle, hc.done, ?_⟩
    rcases hends.codes with ⟨hcode, -⟩ | ⟨hcode, -⟩ | ⟨m, rfl, hcode, -⟩
    · exact absurd hcode (exec_errCode_ne_invalidParameters h ht)
    · exact .inl hcode
    · exact .inr ⟨hcode, hop⟩

/-- Settles O43: the codes of a command's three ends. -/
theorem errorCodesBelongToTheirCommands : Obligations.ErrorCodesBelongToTheirCommands := by
  intro i s t ht
  rcases (exec_cases ht).codes with ⟨hcode, hdetail⟩ | ⟨hcode, hdetail⟩ | ⟨m, hi, hcode, hdetail⟩
  · simp [hcode, hdetail]
  · simp [hcode, hdetail]
  · simp [hcode, hdetail, hi]

/-- Settles O44: the engine's turn gives ERRCODE one of the other codes, a host access keeps it or makes it 0, and the
reset makes it 0. -/
theorem cryptoEngineFailureIsNeverRaised : Obligations.CryptoEngineFailureIsNeverRaised := by
  intro s t hs ht
  rcases step_cases s with ⟨-, heq⟩ | ⟨rest, -, heq⟩ | ⟨a, rest, -, heq⟩ | ⟨rest, -, heq⟩
  all_goals rw [heq] at ht
  · exact engineTurn_errCode_ne_cryptoEngineFailure ht hs
  · exact engineTurn_errCode_ne_cryptoEngineFailure ht hs
  · rcases (hostAccess_effect ht).errCode with hcode | hcode
    · exact hcode ▸ hs
    · rw [hcode]
      nofun
  · cases ht
    nofun

/-- Settles O46: an idle engine's own turn and a reset leave it idle, and no host access ends a pending command. -/
theorem busyChangesOnlyByStartCompletionOrReset : Obligations.BusyChangesOnlyByStartCompletionOrReset := by
  intro s t ht
  rcases step_cases s with ⟨hs, heq⟩ | ⟨rest, hs, heq⟩ | ⟨a, rest, hs, heq⟩ | ⟨rest, hs, heq⟩
  all_goals rw [heq] at ht
  · have hidle := engineTurn_ends_idle ht
    exact ⟨fun _ hbusy => (nomatch hidle.symm.trans hbusy), fun _ _ => .inl hs⟩
  · have hidle := engineTurn_ends_idle ht
    exact ⟨fun _ hbusy => (nomatch hidle.symm.trans hbusy), fun _ _ => .inr (.inl ⟨rest, hs⟩)⟩
  · have hlive : ({ s with schedule := rest } : State).busy = s.busy := rfl
    refine ⟨fun hidle hbusy => ?_, fun hbusy hidle => ?_⟩
    · obtain ⟨addr, v, rfl, hoff, hgo⟩ := hostAccess_starts (hlive.trans hidle) ht hbusy
      exact ⟨addr, v, rest, hs, hoff, hgo⟩
    · have hkept := hostAccess_keeps_busy (hlive.trans hbusy) ht
      exact nomatch hidle.symm.trans hkept
  · cases ht
    exact ⟨nofun, fun _ _ => .inr (.inr ⟨rest, hs⟩)⟩

/-- Settles O48, by `engineTurn_completes`. -/
theorem engineTurnCompletesThePendingCommand : Obligations.EngineTurnCompletesThePendingCommand :=
  fun _ _ hp => engineTurn_completes hp

/-- Settles O24: what each of these steps does to the four bits. -/
theorem interruptFollowsItsFourBits : Obligations.InterruptFollowsItsFourBits := by
  intro s v
  refine ⟨rfl, fun t hbusy ht => ?_, fun off width hbusy hs hoff => ?_, fun hidle hgo => ?_, fun hidle => ?_, ?_⟩
  · obtain ⟨p, hp⟩ := State.busy_iff.mp hbusy
    obtain ⟨t', ht', hframe, -, hdone⟩ := engineTurn_completes hp
    obtain rfl := Host.Outcome.next.inj (ht'.symm.trans ht)
    rw [State.irq, hdone, hframe.doneIe, hframe.busyErr, hframe.busyErrIe, Bool.true_and]
  · exact ⟨_, busWrite_busy hs hbusy hoff, by rw [State.irq, Bool.true_and]⟩
  · refine ⟨_, (busWrite_reg_idle .cmd v hidle).trans (congrArg _ (s.writeCmd_start hgo)), ?_⟩
    rw [State.irq, State.startCommand_done, Bool.false_and, Bool.false_or]
    rfl
  · exact ⟨_, busWrite_reg_idle .irqEn v hidle, rfl, rfl⟩
  · exact ⟨_, busWrite_status s v, rfl⟩

end Sys2Proof.Machine

/-! # The reset family (70_reset_and_hazards.md): the reset input, and the end of every finite schedule -/

/-! ## Rules: what a reset leaves, which turns answer, and what they leave on the schedule -/

namespace Sys2Proof.Machine

open Sys2Proof.Safety

/-! ### The words and the bytes after a reset (R271, R272) -/

@[simp] theorem State.assertReset_statusWord (s : State) : s.assertReset.statusWord = 0 := rfl

@[simp] theorem State.assertReset_irqEnWord (s : State) : s.assertReset.irqEnWord = 0 := rfl

@[simp] theorem State.assertReset_irq (s : State) : s.assertReset.irq = false := rfl

/-- A reset leaves every operand register as the reset state has it. -/
theorem State.assertReset_regs_read (s : State) (r : OpReg) : s.assertReset.regs.read r = 0 := by
  obtain ⟨-, -, -, hregs, -⟩ := resetStateHasTheTableValues
  exact hregs r

/-- No byte is listed after a reset, so each is free, of the draw the reset takes (log 3). -/
theorem State.assertReset_buf_get (s : State) (k : Nat) : s.assertReset.buf.get k = Config.freeByte s.draws k := rfl

/-! ### No turn's effect adds a turn to the schedule -/

theorem State.writeReg_schedule (s : State) (r : Reg) (v : Word) : (s.writeReg r v).schedule = s.schedule := by
  cases r with
  | cmd =>
    cases hgo : v.getLsbD 31 with
    | true => rw [State.writeReg, s.writeCmd_start hgo, State.startCommand_schedule]
    | false => rw [State.writeReg, s.writeCmd_store hgo]
  | _ => rfl

theorem HostEffect.schedule {s t : State} (h : HostEffect s t) : t.schedule = s.schedule := by
  cases h with
  | regWritten _ r v => exact s.writeReg_schedule r v
  | _ => rfl

/-- The engine's turn answers in every state, ends idle and leaves the turns to come (R276; log 2). -/
theorem engineTurn_answers (s : State) :
    ∃ t, engineTurn s = .next t ∧ t.pending = none ∧ t.schedule = s.schedule := by
  cases hp : s.pending with
  | none => exact ⟨s, engineTurn_idle hp, hp, rfl⟩
  | some p =>
    obtain ⟨t, ht, hframe, hidle, -⟩ := engineTurn_completes hp
    exact ⟨t, ht, hidle, hframe.schedule⟩

/-! ### Supported turns answer -/

theorem busWrite_answers (s : State) {off bits : Nat} (v : Word) (h : supportedAccess off bits = true) :
    ∃ t, busWrite s off bits v = .next t := by
  rcases busWrite_cases s v h with ⟨-, -, heq⟩ | ⟨-, -, heq⟩ | ⟨-, -, heq⟩ | ⟨-, -, heq⟩
  all_goals exact ⟨_, heq⟩

/-- An access of the window, of a supported width and alignment, answers busy or not (20_memory.md R62 to R69). -/
theorem hostAccess_answers {a : Access} (s : State) (h : TurnSupported (.host a)) :
    ∃ t, hostAccess s a = .next t := by
  cases a with
  | read addr bits =>
    obtain ⟨off, hoff, hs⟩ := h
    obtain ⟨v, d, heq, -⟩ := busRead_supported s hs
    simp only [hostAccess, hoff]
    exact ⟨_, heq⟩
  | write addr bits v =>
    obtain ⟨off, hoff, hs⟩ := h
    simp only [hostAccess, hoff]
    exact busWrite_answers s v hs

/-- A step takes the supported turn it finds first and leaves the rest of the schedule (20_memory.md R75; log 1). -/
theorem step_answers {s : State} {u : Turn} {rest : List Turn} (hs : s.schedule = u :: rest) (hu : TurnSupported u) :
    ∃ t, step s = .next t ∧ t.schedule = rest := by
  cases u with
  | host a =>
    obtain ⟨t, ht⟩ := hostAccess_answers { s with schedule := rest } hu
    exact ⟨t, (step_host hs).trans ht, (hostAccess_effect ht).schedule⟩
  | resetInput => exact ⟨_, step_resetInput hs, State.assertReset_schedule _⟩
  | engine =>
    obtain ⟨t, ht, -, hsched⟩ := engineTurn_answers { s with schedule := rest }
    exact ⟨t, (step_engine hs).trans ht, hsched⟩

/-! ### Runs -/

theorem run_succ {s t : State} (h : step s = .next t) (k : Nat) : core.run (k + 1) s = core.run k t := by
  have hcore : core.step s = .next t := h
  simp only [Host.Core.run, hcore]

/-- As many steps as a supported schedule has turns use it up. -/
theorem run_schedule {turns : List Turn} (hsupp : ∀ u ∈ turns, TurnSupported u) {s : State}
    (hs : s.schedule = turns) (k : Nat) :
    ∃ t : State, core.run (turns.length + k) s = core.run k t ∧ t.schedule = [] := by
  induction turns generalizing s with
  | nil => exact ⟨s, by rw [List.length_nil, Nat.zero_add], hs⟩
  | cons u rest ih =>
    obtain ⟨hu, hrest⟩ := List.forall_mem_cons.mp hsupp
    obtain ⟨s', hstep, hs'⟩ := step_answers hs hu
    obtain ⟨t, hrun, ht⟩ := ih hrest hs'
    exact ⟨t, by rw [List.length_cons, Nat.add_right_comm, run_succ hstep, hrun], ht⟩

end Sys2Proof.Machine

/-! ## The obligations of the reset family -/

namespace Sys2Proof.Machine

open Sys2Proof.Safety

/-- Settles O49: the listed turns are used up, and the one step more is the engine's turn. -/
theorem everyFiniteScheduleEndsIdle : Obligations.EveryFiniteScheduleEndsIdle := by
  intro s hsupp
  obtain ⟨t, hrun, hnone⟩ := run_schedule hsupp rfl 1
  obtain ⟨t', hturn, hidle, hsched⟩ := engineTurn_answers t
  have hstep : step t = .next t' := (step_unscheduled hnone).trans hturn
  exact ⟨t', hrun.trans (run_succ hstep 0), hidle, hsched.trans hnone⟩

/-- Settles O26: the reset turn is `assertReset`, whose fields are the table's; the draw it takes is the next one. -/
theorem resetInputRestoresTheResetValues : Obligations.ResetInputRestoresTheResetValues := by
  intro s rest hs
  exact ⟨_, step_resetInput hs, State.assertReset_cmd _, State.assertReset_statusWord _, State.assertReset_irqEnWord _,
    State.assertReset_regs_read _, State.assertReset_pending _, State.assertReset_irq _, State.assertReset_cfg _,
    State.assertReset_schedule _, State.assertReset_buf_get _, s.draws.lt_succ_self⟩

end Sys2Proof.Machine
